-- ==== Sys2Proof/Word.lean ====
section
/-! DEFINITION. The word types of NFENC (00_scope R7, R8): everything on the wire is a byte, bit 0 the
least significant, all values unsigned; a port transfer written as one word has 17 bits (30_encoding R58, R59). -/

namespace Sys2Proof

/-- A byte of the wire, of a table entry or of a row cell (00_scope R7). -/
abbrev Byte := BitVec 8

/-- A transfer on `WR` or `CMD` written as one word (30_encoding R58, R59). -/
abbrev PortWord := BitVec 17

end Sys2Proof
end

