-- ==== Sys2Proof/Machine/Errors.lean ====
section
/-! DEFINITION. The three errors of the block and their codes (60_exceptions R170, 10_state R17). -/

namespace Sys2Proof.Machine

/-- The three validation errors (60 R170). -/
inductive CmdError where
  | tooManyRows
  | rowTooLong
  | invalidRowSelection
  deriving DecidableEq, Repr

/-- `ERR = OK` (10_state R17). -/
def errOk : BitVec 2 := 0b00

/-- The `ERR` code of an error (10_state R17, 60 R170). -/
def errCode : CmdError → BitVec 2
  | .tooManyRows => 0b01
  | .rowTooLong => 0b10
  | .invalidRowSelection => 0b11

end Sys2Proof.Machine
end

