-- ==== Sys2Proof/Config.lean ====
section
/-! DEFINITION. What is fixed for one machine: the parameters that 00_scope R4 marks "decided" (a model
takes each as a configuration field; the defaults are `defaultParams` in Machine/Tables.lean, log 8), and
the one free value of the model, the order of moves that the spec leaves open (log 2). -/

namespace Sys2Proof

/-- `PARITY_MODE` of 00_scope R4: which reading of the parity encoder holds (41_text_encoder R92, R94). -/
inductive ParityMode where
  | setMsbIfEven
  | forceOdd
  deriving DecidableEq, Repr

/-- `FRAME_CTRL` of 00_scope R4: whether `CR VT VT` and `LF LF` bypass the parity encoder (43 R126). -/
inductive FrameCtrl where
  | literal
  | throughParity
  deriving DecidableEq, Repr

/-- `TEXT_CODE` of 00_scope R4: the bytes that stand for the 13 non-ASCII characters whose remapping the
document names (40 R76, R77; 92 D8). Every other character is the byte the host writes. -/
structure TextCode where
  /-- § -/
  sectionSign : Byte
  /-- Ä -/
  capAuml     : Byte
  /-- Ö -/
  capOuml     : Byte
  /-- Ü -/
  capUuml     : Byte
  /-- ä -/
  smallAuml   : Byte
  /-- ö -/
  smallOuml   : Byte
  /-- ü -/
  smallUuml   : Byte
  /-- ß -/
  eszett      : Byte
  /-- ° -/
  degreeSign  : Byte
  /-- À -/
  capAgrave   : Byte
  /-- Ã -/
  capAtilde   : Byte
  /-- Å -/
  capAring    : Byte
  /-- Æ -/
  capAe       : Byte
  deriving DecidableEq, Repr

/-- The parameters that 00_scope R4 marks "decided", `SETTLE_MS` (44 R155, 93 U5: a configuration constant
of the host) and which of the two hosts of 44 R161 drives the block. No step writes any of them. -/
structure Params where
  parityMode      : ParityMode
  frameCtrl       : FrameCtrl
  /-- `PAGE_WIDTH`: how many bits of the port's page field the page operand has (log 8) -/
  pageWidth       : Nat
  textCode        : TextCode
  padByte         : Byte
  remapDegree     : Byte
  remapAgrave     : Byte
  remapAtilde     : Byte
  remapAring      : Byte
  remapAe         : Byte
  handshakePage   : BitVec 12
  settleMs        : Nat
  /-- `true`: the host checks a request itself before its step 3, so the document's step order is kept;
  `false`: it relies on the block's check alone (44 R161 describes both). -/
  hostChecksFirst : Bool
  deriving DecidableEq, Repr

/-- FREE VALUE (log 2): which of several enabled moves happens next. 10_state R18 lets `WR` and `CMD`
transfer in any order, 44 R157 and 70 R195 let host activities interleave at any point. Nothing is known
of this function; the step applies it to a counter of `State`. -/
opaque Config.pick : Nat → Nat

end Sys2Proof
end

