-- ==== Sys2Proof/Machine/Tables.lean ====
section
/-! DEFINITION. The constants of NFENC, each in one place (93 U15): the Hamming table, the remapping
table, the literal bytes, the row-count and slot codes, the sizes, and the default parameters (00_scope R4). -/

namespace Sys2Proof.Machine

/-- `HAM_TABLE`, index 0 first (40 R70). -/
def hamTable : List Byte :=
  [0x15, 0x02, 0x49, 0x5E, 0x64, 0x73, 0x38, 0x2F, 0xD0, 0xC7, 0x8C, 0x9B, 0xA1, 0xB6, 0xFD, 0xEA]

/-- `HAM[n]`, total on the nibbles (40 R70, R71). -/
def ham (n : BitVec 4) : Byte :=
  hamTable[n.toNat]'(by have := n.isLt; simp only [hamTable, List.length_cons, List.length_nil]; omega)

/-- The gate-level form of `HAM` (40 R72): data bits at the odd positions, check bits at the even ones.
The table is the definition; this is the derived second view of it. -/
def hamGates (n : BitVec 4) : Byte :=
  let d0 := n.getLsbD 0
  let d1 := n.getLsbD 1
  let d2 := n.getLsbD 2
  let d3 := n.getLsbD 3
  BitVec.ofBool d3 ++ BitVec.ofBool (d1 ^^ d2 ^^ d3) ++ BitVec.ofBool d2 ++
    BitVec.ofBool (true ^^ d0 ^^ d1 ^^ d2) ++ BitVec.ofBool d1 ++
    BitVec.ofBool (true ^^ d0 ^^ d1 ^^ d3) ++ BitVec.ofBool d0 ++
    BitVec.ofBool (true ^^ d0 ^^ d2 ^^ d3)

/-- The 9 punctuation cells of `REMAP` (40 R75). -/
def remapPunctuation : List (Byte × Byte) :=
  [(0x40, 0x2A), (0x60, 0x27), (0x5B, 0x28), (0x5C, 0x2F), (0x5D, 0x29), (0x7B, 0x28), (0x7C, 0x49),
   (0x7D, 0x29), (0x7E, 0x2D)]

/-- The 8 German cells of `REMAP`, at the codes of their characters (40 R76). -/
def remapGerman (c : TextCode) : List (Byte × Byte) :=
  [(c.sectionSign, 0x40), (c.capAuml, 0x5B), (c.capOuml, 0x5C), (c.capUuml, 0x5D), (c.smallAuml, 0x7B),
   (c.smallOuml, 0x7C), (c.smallUuml, 0x7D), (c.eszett, 0x7E)]

/-- The 5 cells the document leaves open, each a parameter, at the codes of their characters (40 R77). -/
def remapOpen (p : Params) : List (Byte × Byte) :=
  [(p.textCode.degreeSign, p.remapDegree), (p.textCode.capAgrave, p.remapAgrave),
   (p.textCode.capAtilde, p.remapAtilde), (p.textCode.capAring, p.remapAring),
   (p.textCode.capAe, p.remapAe)]

/-- The explicit domain of `REMAP`, 22 cells (40 R74, R78 (a)). -/
def remapTable (p : Params) : List (Byte × Byte) :=
  remapPunctuation ++ remapGerman p.textCode ++ remapOpen p

/-- `REMAP[b]`: one lookup, the identity outside the explicit domain (40 R74). -/
def remap (p : Params) (b : Byte) : Byte :=
  ((remapTable p).lookup b).getD b

/-- `LEAD_PAGESEL` (00_scope R4). -/
def leadPageSel : Byte := 0x0E
/-- `LEAD_SETTEXT` (00_scope R4). -/
def leadSetText : Byte := 0x8F
/-- `BYTE_REVEAL` (00_scope R4, 43 R128). -/
def byteReveal : Byte := 0x10
/-- `BYTE_CLEAR` (00_scope R4, 43 R129). -/
def byteClear : Byte := 0x98
/-- CR and VT of `ROW_PREFIX` = CR VT VT (00_scope R4, 43 R126). -/
def byteCR : Byte := 0x0D
@[inherit_doc byteCR] def byteVT : Byte := 0x0B
/-- LF of `ROW_SUFFIX` = LF LF (00_scope R4, 43 R126); PRESUMED by the spec itself (93 G2, log 16). -/
def byteLF : Byte := 0x0A

/-- The seven literal control bytes of the wire (30 R57). -/
def literalBytes : List Byte :=
  [leadPageSel, leadSetText, byteReveal, byteClear, byteCR, byteVT, byteLF]

/-- `ROW_WIDTH` (00_scope R4). -/
def rowWidth : Nat := 35
/-- `MAX_ROWS` (00_scope R4). -/
def maxRows : Nat := 3

/-- `SLOT_BOTTOM`, `SLOT_MIDDLE`, `SLOT_TOP` (00_scope R4, 42 R110). -/
def slotBottom : Byte := 0x38
@[inherit_doc slotBottom] def slotMiddle : Byte := 0x64
@[inherit_doc slotBottom] def slotTop : Byte := 0x49

/-- `PLACE_HI_NORMAL` = `HAM[1]` and `PLACE_HI_HIGH` = `HAM[0]` (00_scope R4, 42 R110). -/
def placeHiNormal : Byte := ham 1
@[inherit_doc placeHiNormal] def placeHiHigh : Byte := ham 0

/-- `ROWCODE[n]`; the table has no entry but 1, 2 and 3 (43 R127). -/
def rowCode : Nat → Option Byte
  | 1 => some 0xC7
  | 2 => some 0x8C
  | 3 => some 0x9B
  | _ => none

/-- `SLOT(n, i)`: the slot of row `i` of a request of `n` rows (42 R111); none outside the six pairs. -/
def slot (n i : Nat) : Option Byte :=
  match n, i with
  | 1, 0 => some slotBottom
  | 2, 0 => some slotMiddle
  | 2, 1 => some slotBottom
  | 3, 0 => some slotTop
  | 3, 1 => some slotMiddle
  | 3, 2 => some slotBottom
  | _, _ => none

/-- `DEFAULT_DURATION_MS` (00_scope R4, 44 R160): the duration of a call that omits it (92 D26). -/
def defaultDurationMs : Nat := 2500

/-- The ISO 8859-1 codes, the default of `TEXT_CODE` (00_scope R4, 92 D8; log 16). -/
def latin1 : TextCode where
  sectionSign := 0xA7
  capAuml := 0xC4
  capOuml := 0xD6
  capUuml := 0xDC
  smallAuml := 0xE4
  smallOuml := 0xF6
  smallUuml := 0xFC
  eszett := 0xDF
  degreeSign := 0xB0
  capAgrave := 0xC0
  capAtilde := 0xC3
  capAring := 0xC5
  capAe := 0xC6

/-- The defaults of 00_scope R4. `hostChecksFirst` is the document's step order (44 R161; DESIGN CHOICE,
log 17). -/
def defaultParams : Params where
  parityMode := .setMsbIfEven
  frameCtrl := .literal
  pageWidth := 12
  textCode := latin1
  padByte := 0x20
  remapDegree := 0x60
  remapAgrave := 0xC1
  remapAtilde := 0xC1
  remapAring := 0x5B
  remapAe := 0x5B
  handshakePage := 0x888
  settleMs := 40
  hostChecksFirst := true

end Sys2Proof.Machine
end

