-- ==== Sys2Proof/Machine/State.lean ====
section
/-! DEFINITION. The state of the model, plain data: the block's whole state (10_state R10), the model's
records of a run (00_scope R6, 70 R200), the parameters (00_scope R4), and the host that drives the ports
(44_host_sequences, 10_state R18), whose operations to come are the input the step reads (log 1). -/

namespace Sys2Proof.Machine

/-- `ROWBUF`: the cells that hold a value, by address, in canonical form (10_state R11). An address is the
port's own eight bits `{wr_row, wr_idx}`, so cell `(r, k)` is at `64 r + k` (log 14). A cell not listed
holds "no value". -/
abbrev Memory := List Host.Cell

/-- The addresses of the 105 cells: row 0..2, cell 0..34 (10_state R11, 20_memory R30). -/
def isCellAddr (a : Nat) : Bool := a / 64 ≤ 2 && a % 64 ≤ 34

/-- The canonical form: addresses strictly rising, each a cell that exists. Every listed byte differs from
what an unlisted cell reads as, since that is "no value". -/
def Memory.wf (m : Memory) : Bool :=
  decide ((m.map Prod.fst).Pairwise (· < ·)) && m.all (fun c => isCellAddr c.1)

/-- `OPR`, the operand latch (10_state R13). -/
structure Opr where
  op    : BitVec 2
  page  : BitVec 12
  nrows : BitVec 3
  deriving DecidableEq, Repr

/-- One entry of the transmit history: `(tx_data, tx_last)` (00_scope R6). -/
structure TxItem where
  data : Byte
  last : Bool
  deriving DecidableEq, Repr

/-- What the host presents at the block's ports (10_state R18). -/
inductive PortOp where
  /-- assert `rst` (70 R190) -/
  | rst
  /-- present this word on `WR` (30 R59) -/
  | wr (w : PortWord)
  /-- present this word on `CMD` (30 R58) -/
  | cmd (w : PortWord)
  /-- take one byte from `TX` (43 R130) -/
  | tx
  /-- take all bytes of the packet in flight, none if there is none ("Send X", 44) -/
  | takePacket
  deriving DecidableEq, Repr

/-- What the session does by itself, and what its environment does to it (44_host_sequences). -/
inductive SessionOp where
  /-- `ensureConnected(host, port)` (44 R152) -/
  | ensureConnected (host : String) (port : Nat)
  /-- the connection attempt under way ends (44 R152) -/
  | awaitConnect
  /-- the handshake on the connection with this transport handle is out; it failed if that connection has
  been lost since (44 R158) -/
  | handshakeDone (handle : Nat)
  /-- the host's own check of a request, step 2 of `API.SetText` (44 R153, R161) -/
  | validate (rows : List (List Byte))
  /-- cancel the pending auto-clear timer (44 R153 step 3, R156) -/
  | cancelTimer
  /-- let the settle delay pass (44 R155) -/
  | settle
  /-- read `st_err` after a command; the call fails if it is not 0 (60 R173, R178) -/
  | checkErr
  /-- start the auto-clear timer, replacing any pending one (44 R153 step 7, R156) -/
  | startTimer (ms : Nat)
  /-- the call returns to its caller, who goes on with what follows: the last operation of every call -/
  | ret
  /-- time passes (the host's clock, 44 R155, R156) -/
  | elapse (ms : Nat)
  /-- an error or close of the open connection with this transport handle (44 R158) -/
  | transportError (handle : Nat)
  deriving DecidableEq, Repr

/-- One operation of a host activity: at a port of the block, or the session's own. -/
inductive HostOp where
  | port (op : PortOp)
  | own (op : SessionOp)
  deriving DecidableEq, Repr

/-- The connection states of the session (44 R151); the writable flag is `connected`. -/
inductive Conn where
  | disconnected
  | connecting
  | connected
  deriving DecidableEq, Repr

/-- What a public call hands back to its caller (44 R158, R161). -/
inductive CallResult where
  | returned
  /-- no connection could be opened, or its handshake failed (44 R152, R158) -/
  | connectFailed
  | rejected (err : BitVec 2)
  deriving DecidableEq, Repr

/-- The host's session record (44 R151), its clock in ms and its inputs from the transport. -/
structure Session where
  /-- connection state (44 R151) -/
  conn        : Conn
  /-- the transport handle: which connection is the session's, none before one was opened (44 R151, log 38) -/
  handle      : Option Nat
  /-- how many connections were opened; connection number `n` has the handle `n` (log 38) -/
  opened      : Nat
  /-- the handles of the connections lost, oldest first: an error or close, which the host observes and logs
  (44 R158), or a packet torn by a reset of the block (70 R191) -/
  lost        : List Nat
  /-- host and port of the session, once one was opened (44 R151) -/
  peer        : Option (String × Nat)
  /-- the time at which the one pending auto-clear timer is due (44 R156) -/
  timer       : Option Nat
  /-- the host's clock -/
  now         : Nat
  /-- the next packet may not start before this time (44 R155) -/
  settleUntil : Nat
  /-- outcomes of the connection attempts to come, an input (log 18) -/
  dials       : List Bool
  /-- results handed to callers, oldest first -/
  results     : List CallResult
  deriving DecidableEq, Repr

/-- The state of block, records, parameters and host. -/
structure State where
  /-- `ROWBUF` (10_state R11) -/
  rowbuf  : Memory
  /-- `ROWLEN[0]`, `ROWLEN[1]`, `ROWLEN[2]` (10_state R12) -/
  rowlen0 : BitVec 6
  rowlen1 : BitVec 6
  rowlen2 : BitVec 6
  /-- `OPR` (10_state R13) -/
  opr     : Opr
  /-- `PKT` (10_state R14) -/
  pkt     : List Byte
  /-- `IDX` (10_state R15) -/
  idx     : BitVec 8
  /-- `BUSY` (10_state R16) -/
  busy    : Bool
  /-- `ERR` (10_state R17) -/
  err     : BitVec 2
  /-- `TXH`, the model's record of the bytes handed to `TX` (00_scope R6) -/
  txh     : List TxItem
  /-- the model's record of the `ERR` code of each accepted command (00_scope R6, 70 R200) -/
  errs    : List (BitVec 2)
  /-- the parameters, which no step writes (00_scope R4, log 8) -/
  params  : Params
  /-- the host activities, each the operations it has still to do (44 R157, 70 R195, log 1) -/
  acts    : List (List HostOp)
  /-- how many free choices were made, the argument of `Config.pick` (log 2) -/
  sched   : Nat
  /-- the host's session (44 R151) -/
  session : Session
  deriving DecidableEq, Repr

/-- Where the model stops with a fault. -/
inductive Fault where
  /-- `SETTEXT` reads a cell that holds "no value" (60 R176). Raised by `readCells`. SAFE: the hardware
  would send some byte, the model sends none (log 9). -/
  | unwrittenCell (row cell : Nat)
  /-- `BUSY = 1` and `PKT` has no byte at `IDX`. Raised by `txTransfer`. SAFE: 10_state R15 rules the state
  out, and no run reaches it (log 12). -/
  | noByteAtIdx (idx : Nat)
  deriving DecidableEq, Repr

/-- Where the model has no meaning for an instruction. -/
inductive Refusal where
  /-- raised by `exec` for an instruction without a meaning; SAFE. No arm of `exec` raises it. -/
  | notModelled (mnemonic : String)
  deriving DecidableEq, Repr

/-- The host before its first call: no connection, no timer, clock 0 (44 R151; DESIGN CHOICE, log 23). -/
def Session.initial : Session where
  conn := .disconnected
  handle := none
  opened := 0
  lost := []
  peer := none
  timer := none
  now := 0
  settleUntil := 0
  dials := []
  results := []

/-- The machine right after the reset that starts a run (10_state R21, 70 R190; log 10), with default parameters
(00_scope R4), empty records and a host with nothing to do (log 7, log 23). -/
def State.reset : State where
  rowbuf := []
  rowlen0 := 0
  rowlen1 := 0
  rowlen2 := 0
  opr := ⟨0, 0, 0⟩
  pkt := []
  idx := 0
  busy := false
  err := 0
  txh := []
  errs := []
  params := defaultParams
  acts := []
  sched := 0
  session := Session.initial

end Sys2Proof.Machine
end

