-- ==== Sys2Proof/Machine/Ops.lean ====
section
/-! DEFINITION. The named operations over the state: the row buffer and the length registers, taking an
error, accepting a command, the `TX` step, the reset. -/

namespace Sys2Proof.Machine

/-- What a step answers. -/
abbrev Answer := Host.Outcome State Fault Refusal

/-- What a cell that is not listed reads as: "no value" (10_state R11, log 9). -/
def unlistedCell : Option Byte := none

/-- The value at an address (10_state R11). -/
def memRead : Memory → Nat → Option Byte
  | [], _ => unlistedCell
  | (a, b) :: m, x => if x = a then some b else memRead m x

/-- The memory with `v` at address `x`, in canonical form. -/
def memWrite : Memory → Nat → Byte → Memory
  | [], x, v => [(x, v)]
  | (a, b) :: m, x, v =>
    if x < a then (x, v) :: (a, b) :: m
    else if x = a then (x, v) :: m
    else (a, b) :: memWrite m x v

/-- The address of cell `(r, k)`: the eight bits `{wr_row, wr_idx}` of the port (20_memory R31, log 14). -/
def cellAddr (r k : Nat) : Nat := 64 * r + k

/-- Whether `(r, k)` addresses a cell (20_memory R31). -/
def isCell (r : BitVec 2) (k : BitVec 6) : Bool := r.toNat ≤ 2 && k.toNat ≤ 34

/-- `WRCH`'s effect (43 R120): a write to a non-cell is accepted and dropped
(log 11). -/
def writeCell (r : BitVec 2) (k : BitVec 6) (b : Byte) (s : State) : State :=
  if isCell r k then { s with rowbuf := memWrite s.rowbuf (cellAddr r.toNat k.toNat) b } else s

/-- `ROWLEN[r]` (10_state R12). -/
def rowLen (s : State) : Fin 3 → BitVec 6
  | 0 => s.rowlen0
  | 1 => s.rowlen1
  | 2 => s.rowlen2

/-- `WRLEN`'s effect (43 R121): a write to row 3 is accepted and dropped. -/
def writeLen (r : BitVec 2) (n : BitVec 6) (s : State) : State :=
  match r.toNat with
  | 0 => { s with rowlen0 := n }
  | 1 => { s with rowlen1 := n }
  | 2 => { s with rowlen2 := n }
  | _ => s

/-- The cells `(r, k)`, `(r, k + 1)`, ..., `n` of them, read in order; the first that holds "no value" is a
model fault (43 R125, 60 R176). -/
def readCells (m : Memory) (r : Nat) : Nat → Nat → Except Fault (List Byte)
  | _, 0 => .ok []
  | k, n + 1 =>
    match memRead m (cellAddr r k) with
    | none => .error (.unwrittenCell r k)
    | some b =>
      match readCells m r (k + 1) n with
      | .error f => .error f
      | .ok bs => .ok (b :: bs)

/-- The text of row `r`: its cells below `ROWLEN[r]` (43 R125). -/
def rowText (s : State) (r : Fin 3) : Except Fault (List Byte) :=
  readCells s.rowbuf r.val 0 (rowLen s r).toNat

/-- Taking an error, what `raise E` does (60 R173, 43 R122): `PKT` empty, `IDX` 0, `BUSY` 0, `ERR` the
code, recorded. Control goes nowhere: no handler, no saved state, and so no return operation (60 R178); the
next accepted command overwrites `ERR`. -/
def raise (e : CmdError) (s : State) : State :=
  { s with pkt := [], idx := 0, busy := false, err := errCode e, errs := s.errs ++ [errCode e] }

/-- The other arm of an acceptance (43 R122): `PKT` the packet, `IDX` 0, `BUSY` 1, `ERR` OK, recorded. -/
def launch (packet : List Byte) (s : State) : State :=
  { s with pkt := packet, idx := 0, busy := true, err := errOk, errs := s.errs ++ [errOk] }

/-- `OPR` takes the command port's three fields, used or not (10_state R13). -/
def latch (o : Opr) (s : State) : State := { s with opr := o }

/-- What evaluating a command's rule comes to when it yields no packet (43 R122): an error of the block, or
a read the hardware gives no meaning to. -/
inductive NoPacket where
  | raises (e : CmdError)
  | faults (f : Fault)
  deriving DecidableEq, Repr

/-- Acceptance of a command, common to the four (43 R122). While `BUSY = 1` the command port is held
(10_state R18): the transfer waits and nothing changes (log 13). -/
def accept (o : Opr) (built : Except NoPacket (List Byte)) (s : State) : Answer :=
  if s.busy then .next s
  else match built with
    | .ok packet => .next (launch packet (latch o s))
    | .error (.raises e) => .next (raise e (latch o s))
    | .error (.faults f) => .fault f

/-- A transfer on `WR`: held while `BUSY = 1` (10_state R18, log 13). -/
def acceptWrite (write : State → State) (s : State) : Answer :=
  if s.busy then .next s else .next (write s)

/-- `IDX = len(PKT) - 1` (43 R130). -/
def atLast (s : State) : Bool := s.idx.toNat + 1 == s.pkt.length

/-- The `TX` step's effect on the state when `b` is the byte handed out (43 R130). -/
def handOut (b : Byte) (s : State) : State :=
  if atLast s then { s with txh := s.txh ++ [⟨b, true⟩], idx := 0, busy := false }
  else { s with txh := s.txh ++ [⟨b, false⟩], idx := s.idx + 1 }

/-- The `TX` step (43 R130). With `BUSY = 0` nothing is offered: the host's transfer waits (10_state R18). -/
def txTransfer (s : State) : Answer :=
  if s.busy then
    match s.pkt[s.idx.toNat]? with
    | some b => .next (handOut b s)
    | none => .fault (.noByteAtIdx s.idx.toNat)
  else .next s

/-- A reset of the block (70 R190): the state of 10_state R21. The records, the parameters and the host are
not the block's and stay (70 R191, log 26). -/
def resetBlock (s : State) : State :=
  { s with
    rowbuf := [], rowlen0 := 0, rowlen1 := 0, rowlen2 := 0, opr := ⟨0, 0, 0⟩,
    pkt := [], idx := 0, busy := false, err := errOk }

end Sys2Proof.Machine
end

