-- ==== Sys2Proof/Machine/Flags.lean ====
section
/-! DEFINITION. The two status flags and what the ports show of them (10_state R16, R17, R18, R22), and the
validation that decides `ERR` (43 R124, 60 R175). -/

namespace Sys2Proof.Machine

/-- `wr_ready = not BUSY` (10_state R18). -/
def wrReady (s : State) : Bool := !s.busy
/-- `cmd_ready = not BUSY` (10_state R18). -/
def cmdReady (s : State) : Bool := !s.busy
/-- `tx_valid = BUSY` (10_state R18). -/
def txValid (s : State) : Bool := s.busy
/-- `tx_data = PKT[IDX]`, none where there is no such byte (10_state R18). -/
def txData (s : State) : Option Byte := s.pkt[s.idx.toNat]?
/-- `tx_last = (IDX = len(PKT) - 1)` (10_state R18). -/
def txLast (s : State) : Bool := atLast s
/-- `st_busy = BUSY` (10_state R18). -/
def stBusy (s : State) : Bool := s.busy
/-- `st_err = ERR` (10_state R18). -/
def stErr (s : State) : BitVec 2 := s.err

/-- The rows of a request of `n` rows, in order: the `r` of 0, 1, 2 with `r < n` (43 R124, R125). -/
def requestRows (n : BitVec 3) : List (Fin 3) :=
  [0, 1, 2].filter (fun r => r.val < n.toNat)

/-- The validation of `SETTEXT n`: the first check that fails (43 R124), in the order of 60 R175. -/
def settextError (s : State) (n : BitVec 3) : Option CmdError :=
  if maxRows < n.toNat then some .tooManyRows
  else if n.toNat = 0 then some .invalidRowSelection
  else if (requestRows n).any (fun r => rowWidth < (rowLen s r).toNat) then some .rowTooLong
  else none

end Sys2Proof.Machine
end

