-- ==== Sys2Proof/Machine/Operands.lean ====
section
/-! DEFINITION. How the operands of an operation become bytes of the wire (30_encoding R55): page nibbles,
the text path `PAD`, `PAR`, `ENCTEXT` (41_text_encoder), the placement selector `PLACE` (42_row_placement)
and the row block `ROWBLOCK` (43 R126). All combinational, on values and parameters only. -/

namespace Sys2Proof.Machine

/-- The page nibble `h = PAGE[11:8]` (30 R55 (a)). -/
def pageMagazine (page : BitVec 12) : BitVec 4 := page.extractLsb' 8 4
/-- The page nibble `t = PAGE[7:4]` (30 R55 (a)). -/
def pageTens (page : BitVec 12) : BitVec 4 := page.extractLsb' 4 4
/-- The page nibble `u = PAGE[3:0]` (30 R55 (a)). -/
def pageUnits (page : BitVec 12) : BitVec 4 := page.extractLsb' 0 4

/-- The page operand: the low `PAGE_WIDTH` bits of the port's page field, all 12 of them by default
(00_scope R4, 30 R58; log 8). -/
def pageOperand (p : Params) (field : BitVec 12) : BitVec 12 :=
  BitVec.ofNat 12 (field.toNat % 2 ^ p.pageWidth)

/-- The page-select packet, format W-PS (30 R51, 43 R123); the most significant nibble first (20 R34). -/
def pageSelPacket (page : BitVec 12) : List Byte :=
  [leadPageSel, ham 0, ham (pageMagazine page), ham (pageTens page), ham (pageUnits page)]

/-- The number of bits of `b` that are 1 (00_scope R7). -/
def popcount (b : Byte) : Nat :=
  (List.range 8).countP (fun i => b.getLsbD i)

/-- `PAR` (41 R92; R94 for `FORCE_ODD`). -/
def par (mode : ParityMode) (b : Byte) : Byte :=
  match mode with
  | .setMsbIfEven => if popcount b % 2 = 0 then b ||| 0x80 else b
  | .forceOdd => BitVec.ofBool (popcount (b &&& 0x7F) % 2 = 0) ++ b.extractLsb' 0 7

/-- `ENCTEXT`: `PAR(REMAP[c])`, each byte on its own (41 R93). -/
def encText (p : Params) (s : List Byte) : List Byte :=
  s.map (fun c => par p.parityMode (remap p c))

/-- How many pad bytes `PAD` puts on the left of a row of length `len` (41 R90). -/
def leftPad (len : Nat) : Nat := (rowWidth - len + 1) / 2

/-- `PAD`: centred in 35 characters, the extra pad byte on the left (41 R90). -/
def pad (p : Params) (t : List Byte) : List Byte :=
  let deficit := rowWidth - t.length
  let left := leftPad t.length
  List.replicate left p.padByte ++ t ++ List.replicate (deficit - left) p.padByte

/-- `PLACE(i, n, hp)` (42 R110): the validity check comes before anything else (R112). -/
def place (i n : Nat) (hp : Bool) : Except CmdError (Byte × Byte) :=
  match slot n i with
  | none => .error .invalidRowSelection
  | some p1 => .ok (if hp then placeHiHigh else placeHiNormal, p1)

/-- One of the five control bytes of a row block: literal, or through the parity encoder but not through
`REMAP` under `FRAME_CTRL = THROUGH_PARITY` (43 R126). -/
def frameByte (p : Params) (b : Byte) : Byte :=
  match p.frameCtrl with
  | .literal => b
  | .throughParity => par p.parityMode b

/-- `ROWBLOCK(i, n, t)`, 42 bytes (43 R126); `highPosition` is tied to 0 (42 R113, log 28). -/
def rowBlock (p : Params) (i n : Nat) (t : List Byte) : Except CmdError (List Byte) :=
  match place i n false with
  | .error e => .error e
  | .ok (p0, p1) =>
    .ok ([p0, p1] ++ [frameByte p byteCR, frameByte p byteVT, frameByte p byteVT]
      ++ encText p (pad p t) ++ [frameByte p byteLF, frameByte p byteLF])

end Sys2Proof.Machine
end

