-- ==== Sys2Proof/Machine/Commands.lean ====
section
/-! DEFINITION. The four commands (43_packet_builder §2, §3). -/

namespace Sys2Proof.Machine

/-- `PAGESEL p` (43 R123): no check of the page. `OPR` latches the port's whole field (10_state R13). -/
def execPagesel (page : BitVec 12) (nrows : BitVec 3) (s : State) : Answer :=
  accept ⟨0b00, page, nrows⟩ (.ok (pageSelPacket (pageOperand s.params page))) s

/-- The row blocks of the rows `rs` of a request of `n` rows, one after the other (43 R125). `PLACE` cannot
fail on them (42 R112). -/
def rowBlocks (s : State) (n : Nat) : List (Fin 3) → Except NoPacket (List Byte)
  | [] => .ok []
  | r :: rs =>
    match rowText s r with
    | .error f => .error (.faults f)
    | .ok t =>
      match rowBlock s.params r.val n t with
      | .error e => .error (.raises e)
      | .ok block =>
        match rowBlocks s n rs with
        | .error x => .error x
        | .ok blocks => .ok (block ++ blocks)

/-- `SETTEXT n`: validation (43 R124), then the packet (43 R125). Only 1, 2 and 3 pass validation, so the
row-count code exists (43 R127). -/
def setTextPacket (s : State) (n : BitVec 3) : Except NoPacket (List Byte) :=
  match settextError s n, rowCode n.toNat with
  | some e, _ => .error (.raises e)
  | none, none => .error (.raises .invalidRowSelection)
  | none, some code =>
    match rowBlocks s n.toNat (requestRows n) with
    | .error x => .error x
    | .ok blocks => .ok (leadSetText :: code :: blocks)

/-- `SETTEXT n` (43 R124 to R127). -/
def execSettext (page : BitVec 12) (nrows : BitVec 3) (s : State) : Answer :=
  accept ⟨0b01, page, nrows⟩ (setTextPacket s nrows) s

/-- `REVEAL` (43 R128): reads no state. -/
def execReveal (page : BitVec 12) (nrows : BitVec 3) (s : State) : Answer :=
  accept ⟨0b10, page, nrows⟩ (.ok [byteReveal]) s

/-- `CLEAR` (43 R129): reads no state, and clears no buffer of the block. -/
def execClear (page : BitVec 12) (nrows : BitVec 3) (s : State) : Answer :=
  accept ⟨0b11, page, nrows⟩ (.ok [byteClear]) s

end Sys2Proof.Machine
end

