-- ==== Sys2Proof/Syntax.lean ====
section
/-! DEFINITION. The instructions: one constructor per row of spec/opcode_table.json. Six are host
operations, transfers on the `WR` and `CMD` ports (30_encoding R58, R59, R61); six are the wire formats of
the packets the block hands out on `TX` (30_encoding R51 to R54). -/

namespace Sys2Proof

/-- One row block, format W-ROW (30_encoding R53): placement pair, `CR VT VT`, the text bytes, `LF LF`.
The fields hold whatever bytes stand there; `RowBlock.wf` (WellFormed.lean) says which are legal. -/
structure RowBlock where
  p0   : Byte
  p1   : Byte
  cr   : Byte
  vt1  : Byte
  vt2  : Byte
  text : List Byte
  lf1  : Byte
  lf2  : Byte
  deriving DecidableEq, Repr

/-- The rows of spec/opcode_table.json. A field that an operation ignores is carried all the same: a
command latches all three port fields in `OPR`, used or not (10_state R13). -/
inductive Instr where
  /-- `WRCH`: write `data` to cell `(row, idx)` (43 R120). -/
  | wrch (row : BitVec 2) (idx : BitVec 6) (data : Byte)
  /-- `WRLEN`: write `len` to `ROWLEN[row]`; `ign` is `wr_idx` and `wr_data[7:6]`, ignored (43 R121). -/
  | wrlen (row : BitVec 2) (ign : BitVec 8) (len : BitVec 6)
  /-- `PAGESEL`: the page-select packet of `page` (43 R123). -/
  | pagesel (page : BitVec 12) (nrows : BitVec 3)
  /-- `SETTEXT`: the Set-Text packet of the first `nrows` rows (43 R124 to R127). -/
  | settext (page : BitVec 12) (nrows : BitVec 3)
  /-- `REVEAL`: the packet `10` (43 R128). -/
  | reveal (page : BitVec 12) (nrows : BitVec 3)
  /-- `CLEAR`: the packet `98` (43 R129). -/
  | clear (page : BitVec 12) (nrows : BitVec 3)
  /-- Wire row W-PS: the page-select packet `0E 15 h t u` on `TX` (30 R51). -/
  | wirePageSel (h t u : Byte)
  /-- Wire row W-ST1: the Set-Text packet of one row on `TX` (30 R52). -/
  | wireSetText1 (b0 : RowBlock)
  /-- Wire row W-ST2: the Set-Text packet of two rows on `TX` (30 R52). -/
  | wireSetText2 (b0 b1 : RowBlock)
  /-- Wire row W-ST3: the Set-Text packet of three rows on `TX` (30 R52). -/
  | wireSetText3 (b0 b1 b2 : RowBlock)
  /-- Wire row W-1 REVEAL: the byte `10` on `TX` (30 R54). -/
  | wireReveal
  /-- Wire row W-1 CLEAR: the byte `98` on `TX` (30 R54). -/
  | wireClear
  deriving DecidableEq, Repr

/-- The ports an instruction can stand on (10_state R18). -/
inductive Port where
  | wr
  | cmd
  | tx
  deriving DecidableEq, Repr

/-- What stands on a port: one 17-bit word on `WR` or `CMD` (the same word means different operations on
the two ports, 30 R58, R59), or the bytes of one packet on `TX`, the first handed out first (30 §2). -/
inductive PortItem where
  | wr (w : PortWord)
  | cmd (w : PortWord)
  | tx (bytes : List Byte)
  deriving DecidableEq, Repr

end Sys2Proof
end

