-- ==== Sys2Proof/WellFormed.lean ====
section
/-! DEFINITION. Which instructions are well formed. The operands of the six host operations are exact in
their types (every value of every port field is accepted, 30_encoding R60), so only the wire rows have
checks: the codewords, placements, literals, lengths and text bytes that 30_encoding R51 to R53 and R57
give a packet of the block. -/

namespace Sys2Proof

/-- A codeword: one of the 16 entries of `HAM_TABLE` (30 R57 class 1). -/
def isCodeword (b : Byte) : Bool := Machine.hamTable.contains b

/-- A possible output of `PAR` in either mode (30 R57 class 3, 41 R92, R94): odd popcount, or bit 7 set. -/
def isTextByte (b : Byte) : Bool := Machine.popcount b % 2 == 1 || b.getLsbD 7

/-- Format W-ROW with the slot code `slotCode` (30 R53): placement `02 slotCode`, `0D 0B 0B`, 35 text bytes,
and `0A 0A`, or `8A 8A` under `FRAME_CTRL = THROUGH_PARITY`. -/
def RowBlock.wf (slotCode : Byte) (b : RowBlock) : Bool :=
  b.p0 == 0x02 && b.p1 == slotCode && b.cr == 0x0D && b.vt1 == 0x0B && b.vt2 == 0x0B
    && b.text.length == 35 && b.text.all isTextByte
    && b.lf1 == b.lf2 && (b.lf1 == 0x0A || b.lf1 == 0x8A)

/-- Well-formedness of an instruction. -/
def Instr.wf : Instr → Bool
  | .wrch _ _ _ => true
  | .wrlen _ _ _ => true
  | .pagesel _ _ => true
  | .settext _ _ => true
  | .reveal _ _ => true
  | .clear _ _ => true
  | .wirePageSel h t u => isCodeword h && isCodeword t && isCodeword u
  | .wireSetText1 b0 => b0.wf 0x38
  | .wireSetText2 b0 b1 => b0.wf 0x64 && b1.wf 0x38
  | .wireSetText3 b0 b1 b2 => b0.wf 0x49 && b1.wf 0x64 && b2.wf 0x38
  | .wireReveal => true
  | .wireClear => true

end Sys2Proof
end

