-- ==== Sys2Proof/Decode.lean ====
section
/-! DEFINITION. From what stands on a port to the instruction it is, and back. `WR` and `CMD` words have no
reserved code (30_encoding R58, R59, R60), so their decoding cannot fail; the bytes of a `TX` packet are
read by the first byte, the second byte where the first is `8F`, and the length (30 R56), and are rejected
by name where no row of the table fits. The encoder follows, from the same tables. -/

namespace Sys2Proof

/-- Why bytes are no packet of the block (30 R56). -/
inductive Reject where
  /-- no byte at all -/
  | emptyPacket
  /-- the first byte is none of `0E`, `8F`, `10`, `98` -/
  | unknownLead (b : Byte)
  /-- byte 1 of a page-select packet is not `HAM[0] = 15` (30 R51) -/
  | notPageSelByte1 (b : Byte)
  /-- byte 1 of a Set-Text packet is no row-count code (43 R127) -/
  | unknownRowCode (b : Byte)
  /-- the packet ends before its format does -/
  | truncated
  /-- bytes are left over after the format's last -/
  | trailingBytes
  deriving DecidableEq, Repr

/-- A `WR` word (30 R59): `wr_sel` in bit 16, `wr_row` in 15:14, `wr_idx` in 13:8, `wr_data` in 7:0. -/
def decodeWr (w : PortWord) : Instr :=
  if w.getLsbD 16 then
    .wrlen (w.extractLsb' 14 2) (w.extractLsb' 6 8) (w.extractLsb' 0 6)
  else
    .wrch (w.extractLsb' 14 2) (w.extractLsb' 8 6) (w.extractLsb' 0 8)

/-- A `CMD` word (30 R58): `cmd_op` in bits 16:15, `cmd_page` in 14:3, `cmd_nrows` in 2:0. -/
def decodeCmd (w : PortWord) : Instr :=
  let page := w.extractLsb' 3 12
  let nrows := w.extractLsb' 0 3
  match w.getLsbD 16, w.getLsbD 15 with
  | false, false => .pagesel page nrows
  | false, true => .settext page nrows
  | true, false => .reveal page nrows
  | true, true => .clear page nrows

/-- One row block off the front of the bytes (format W-ROW, 30 R53), and what is left. -/
def rowBlockOf (bytes : List Byte) : Option (RowBlock × List Byte) :=
  match bytes with
  | p0 :: p1 :: cr :: vt1 :: vt2 :: rest =>
    match rest.drop 35 with
    | lf1 :: lf2 :: tail => some (⟨p0, p1, cr, vt1, vt2, rest.take 35, lf1, lf2⟩, tail)
    | _ => none
  | _ => none

/-- Exactly `n` row blocks and nothing after them. -/
def rowBlocksOf : Nat → List Byte → Except Reject (List RowBlock)
  | 0, [] => .ok []
  | 0, _ :: _ => .error .trailingBytes
  | n + 1, bytes =>
    match rowBlockOf bytes with
    | none => .error .truncated
    | some (b, rest) =>
      match rowBlocksOf n rest with
      | .error e => .error e
      | .ok bs => .ok (b :: bs)

/-- The number of rows a row-count code stands for (43 R127). -/
def rowsOfCode (c : Byte) : Option Nat :=
  if c = 0xC7 then some 1 else if c = 0x8C then some 2 else if c = 0x9B then some 3 else none

/-- A Set-Text packet after its lead byte (30 R52). -/
def decodeSetText (bytes : List Byte) : Except Reject Instr :=
  match bytes with
  | [] => .error .truncated
  | code :: rest =>
    match rowsOfCode code with
    | none => .error (.unknownRowCode code)
    | some n =>
      match rowBlocksOf n rest with
      | .error e => .error e
      | .ok [b0] => .ok (.wireSetText1 b0)
      | .ok [b0, b1] => .ok (.wireSetText2 b0 b1)
      | .ok [b0, b1, b2] => .ok (.wireSetText3 b0 b1 b2)
      | .ok _ => .error .truncated

/-- A page-select packet after its lead byte (30 R51). -/
def decodePageSel (bytes : List Byte) : Except Reject Instr :=
  match bytes with
  | [c, h, t, u] => if c = 0x15 then .ok (.wirePageSel h t u) else .error (.notPageSelByte1 c)
  | _ :: _ :: _ :: _ :: _ :: _ => .error .trailingBytes
  | _ => .error .truncated

/-- The bytes of one packet on `TX`; the first byte decides the format (30 R56, log 31). -/
def decodeTx (bytes : List Byte) : Except Reject Instr :=
  match bytes with
  | [] => .error .emptyPacket
  | lead :: rest =>
    if lead = 0x0E then decodePageSel rest
    else if lead = 0x8F then decodeSetText rest
    else if lead = 0x10 then (if rest = [] then .ok .wireReveal else .error .trailingBytes)
    else if lead = 0x98 then (if rest = [] then .ok .wireClear else .error .trailingBytes)
    else .error (.unknownLead lead)

/-- The decoder, total on anything a port can hold. -/
def decode : PortItem → Except Reject Instr
  | .wr w => .ok (decodeWr w)
  | .cmd w => .ok (decodeCmd w)
  | .tx bytes => decodeTx bytes

/-- The 42 bytes of a row block (30 R53). -/
def rowBlockBytes (b : RowBlock) : List Byte :=
  [b.p0, b.p1, b.cr, b.vt1, b.vt2] ++ b.text ++ [b.lf1, b.lf2]

/-- A `WR` word from its fields, high to low (30 R59). -/
def wrWord (sel : BitVec 1) (row : BitVec 2) (idx : BitVec 6) (data : Byte) : PortWord :=
  sel ++ row ++ idx ++ data

/-- A `CMD` word from its fields, high to low (30 R58). -/
def cmdWord (op : BitVec 2) (page : BitVec 12) (nrows : BitVec 3) : PortWord :=
  op ++ page ++ nrows

/-- The encoder: where an instruction stands and with which bits. -/
def encode : Instr → PortItem
  | .wrch row idx data => .wr (wrWord 0 row idx data)
  | .wrlen row ign len => .wr (wrWord 1 row (ign.extractLsb' 2 6) (ign.extractLsb' 0 2 ++ len))
  | .pagesel page nrows => .cmd (cmdWord 0b00 page nrows)
  | .settext page nrows => .cmd (cmdWord 0b01 page nrows)
  | .reveal page nrows => .cmd (cmdWord 0b10 page nrows)
  | .clear page nrows => .cmd (cmdWord 0b11 page nrows)
  | .wirePageSel h t u => .tx [0x0E, 0x15, h, t, u]
  | .wireSetText1 b0 => .tx ([0x8F, 0xC7] ++ rowBlockBytes b0)
  | .wireSetText2 b0 b1 => .tx ([0x8F, 0x8C] ++ rowBlockBytes b0 ++ rowBlockBytes b1)
  | .wireSetText3 b0 b1 b2 =>
      .tx ([0x8F, 0x9B] ++ rowBlockBytes b0 ++ rowBlockBytes b1 ++ rowBlockBytes b2)
  | .wireReveal => .tx [0x10]
  | .wireClear => .tx [0x98]

/-- The bytes an instruction puts on `TX`: those of a wire row, none for a host operation. -/
def wireBytes (i : Instr) : List Byte :=
  match encode i with
  | .tx bytes => bytes
  | _ => []

/-- `n` bytes of a number, the most significant first. -/
def bytesHighFirst : Nat → Nat → List Byte
  | 0, _ => []
  | n + 1, w => BitVec.ofNat 8 (w / 256 ^ n) :: bytesHighFirst n w

/-- `n` 16-bit words of a number, the first word in its low bits, each word's high byte first. -/
def bytesOfWords : Nat → Nat → List Byte
  | 0, _ => []
  | n + 1, w => bytesHighFirst 2 w ++ bytesOfWords n (w / 65536)

/-- How many bytes the packet that begins with these bytes has (30 R56); 0 where they begin none. -/
def packetLength (bytes : List Byte) : Nat :=
  match bytes with
  | lead :: rest =>
    if lead = 0x0E then 5
    else if lead = 0x8F then
      match rest with
      | code :: _ => match rowsOfCode code with
        | some n => 2 + 42 * n
        | none => 0
      | [] => 0
    else if lead = 0x10 || lead = 0x98 then 1
    else 0
  | [] => 0

/-- What a row's word of spec/opcode_table.json is on a port. A 17-bit row (24 bits in whole bytes) has no
port among its bits, and the same word is an operation on `WR` and another on `CMD`: it is read as a `CMD`
word, and with bit 17 set, which no row of the table uses, as a `WR` word (log 4). A wire row is read as its
packet, bytes the number does not reach being 0 (log 5). -/
def tableItem (nbits w : Nat) : Option PortItem :=
  if nbits = 17 ∨ nbits = 24 then
    if w < 2 ^ 17 then some (.cmd (BitVec.ofNat 17 w))
    else if w < 2 ^ 18 then some (.wr (BitVec.ofNat 17 w))
    else none
  else if nbits = 8 ∨ nbits = 40 then some (.tx (bytesHighFirst (nbits / 8) w))
  else if nbits = 16 ∨ nbits = 352 ∨ nbits = 688 ∨ nbits = 1024 then
    let bytes := bytesOfWords (nbits / 16) w
    some (.tx (bytes ++ List.replicate (packetLength bytes - bytes.length) 0))
  else none

/-- The instruction this decoder reads from a table row's word (log 4, log 5). -/
def decodeTableWord (nbits w : Nat) : Option Instr :=
  match tableItem nbits w with
  | none => none
  | some item => (decode item).toOption

end Sys2Proof
end

