-- ==== Sys2Proof/Machine/Wire.lean ====
section
/-! DEFINITION. The six wire rows of the table: a row's instruction is the transfer on `TX` of the next byte
of a packet of that format (30_encoding R51 to R54, 43 R130; log 6). `IDX` says which byte is next, so a
packet of n bytes is n such steps (10_state R15). -/

namespace Sys2Proof.Machine

/-- The next byte of the packet `bytes` leaves (43 R130) when that packet is the one in flight; while it is
not, `TX` does not offer it and the transfer waits (10_state R18, log 6). -/
def txPacketByte (bytes : List Byte) (s : State) : Answer :=
  if s.busy && s.pkt == bytes then txTransfer s else .next s

/-- W-PS on `TX` (30 R51). -/
def execWirePageSel (h t u : Byte) (s : State) : Answer :=
  txPacketByte (wireBytes (.wirePageSel h t u)) s

/-- W-ST of one row on `TX` (30 R52). -/
def execWireSetText1 (b0 : RowBlock) (s : State) : Answer :=
  txPacketByte (wireBytes (.wireSetText1 b0)) s

/-- W-ST of two rows on `TX` (30 R52). -/
def execWireSetText2 (b0 b1 : RowBlock) (s : State) : Answer :=
  txPacketByte (wireBytes (.wireSetText2 b0 b1)) s

/-- W-ST of three rows on `TX` (30 R52). -/
def execWireSetText3 (b0 b1 b2 : RowBlock) (s : State) : Answer :=
  txPacketByte (wireBytes (.wireSetText3 b0 b1 b2)) s

/-- W-1 REVEAL on `TX` (30 R54). -/
def execWireReveal (s : State) : Answer :=
  txPacketByte (wireBytes .wireReveal) s

/-- W-1 CLEAR on `TX` (30 R54). -/
def execWireClear (s : State) : Answer :=
  txPacketByte (wireBytes .wireClear) s

end Sys2Proof.Machine
end

