-- ==== Sys2Proof/Machine/Writes.lean ====
section
/-! DEFINITION. The two host writes (43_packet_builder §1). -/

namespace Sys2Proof.Machine

/-- `WRCH r, k, b` (43 R120). -/
def execWrch (row : BitVec 2) (idx : BitVec 6) (data : Byte) (s : State) : Answer :=
  acceptWrite (writeCell row idx data) s

/-- `WRLEN r, n` (43 R121); `wr_idx` and `wr_data[7:6]` are ignored. -/
def execWrlen (row : BitVec 2) (_ign : BitVec 8) (len : BitVec 6) (s : State) : Answer :=
  acceptWrite (writeLen row len) s

end Sys2Proof.Machine
end

