-- ==== Sys2Proof/Machine/Dispatch.lean ====
section
/-! DEFINITION. The one match from an instruction to its meaning. -/

namespace Sys2Proof.Machine

def exec (i : Instr) (s : State) : Host.Outcome State Fault Refusal :=
  match i with
  | .wrch row idx data => Sys2Proof.Machine.execWrch row idx data s
  | .wrlen row ign len => Sys2Proof.Machine.execWrlen row ign len s
  | .pagesel page nrows => Sys2Proof.Machine.execPagesel page nrows s
  | .settext page nrows => Sys2Proof.Machine.execSettext page nrows s
  | .reveal page nrows => Sys2Proof.Machine.execReveal page nrows s
  | .clear page nrows => Sys2Proof.Machine.execClear page nrows s
  | .wirePageSel h t u => Sys2Proof.Machine.execWirePageSel h t u s
  | .wireSetText1 b0 => Sys2Proof.Machine.execWireSetText1 b0 s
  | .wireSetText2 b0 b1 => Sys2Proof.Machine.execWireSetText2 b0 b1 s
  | .wireSetText3 b0 b1 b2 => Sys2Proof.Machine.execWireSetText3 b0 b1 b2 s
  | .wireReveal => Sys2Proof.Machine.execWireReveal s
  | .wireClear => Sys2Proof.Machine.execWireClear s

end Sys2Proof.Machine
end

