-- ==== Sys2Proof/Machine/Session.lean ====
section
/-! DEFINITION. The host (44_host_sequences): the expansions of the pseudo-operations and of the public
calls into operations on the ports (30_encoding R62, 44 R152 to R154), and what the session's own operations
do. None of it is state of the block (44 R150); the model holds it so that a run of block and host can be
spoken about. -/

namespace Sys2Proof.Machine

/-- `LOADROW r, "text"` (30 R62 (a)): the first 35 characters, then the length, capped at 63. -/
def loadRow (r : BitVec 2) (text : List Byte) : List HostOp :=
  ((text.take rowWidth).zipIdx.map fun ck => .port (.wr (wrWord 0 r (BitVec.ofNat 6 ck.2) ck.1)))
    ++ [.port (.wr (wrWord 1 r 0 (BitVec.ofNat 8 (min text.length 63))))]

/-- The rows of a request into the row buffer, row 0 first; only three rows exist (log 21). -/
def loadRows (rows : List (List Byte)) : List HostOp :=
  ((rows.take maxRows).zipIdx).flatMap fun tr => loadRow (BitVec.ofNat 2 tr.2) tr.1

/-- "Send X" with the settle delay before it (44, 44 R155, log 19). -/
def send (w : PortWord) : List HostOp := [.own .settle, .port (.cmd w), .port .takePacket]

/-- `CLEAR` as a `CMD` word (30 R58). -/
def clearWord : PortWord := cmdWord 0b11 0 0
/-- `REVEAL` as a `CMD` word (30 R58). -/
def revealWord : PortWord := cmdWord 0b10 0 0
/-- `PAGESEL p` as a `CMD` word (30 R58). -/
def pageselWord (page : BitVec 12) : PortWord := cmdWord 0b00 page 0
/-- `SETTEXT n` as a `CMD` word (30 R58). -/
def settextWord (n : BitVec 3) : PortWord := cmdWord 0b01 0 n

/-- `CONNECT`: the handshake (30 R62 (b), 44 R152). -/
def connectOps (p : Params) : List HostOp := send (pageselWord p.handshakePage)

/-- The row count of a request as the three bits of `cmd_nrows`; 7 stands for any larger count (log 21). -/
def rowCount (rows : List (List Byte)) : BitVec 3 := BitVec.ofNat 3 (min rows.length 7)

/-- `API.SetText(host, port, rows, durationMs)`, the document's seven steps (44 R153). An omitted duration
is 2500 and a duration of 0 stops after the Set-Text packet (92 D26). The host reads `st_err` right after
the `SETTEXT`, before any other command of its own (60 R178). A pending auto-clear is cancelled in every
call, timed or not: DESIGN CHOICE (log 32; 44 R153 step 3 against R154, R156). A host that checks a request
itself does so before it loads any row: DESIGN CHOICE (log 36; 44 R161 says only before step 3). -/
def apiSetText (host : String) (port : Nat) (rows : List (List Byte)) (duration : Option Nat) : List HostOp :=
  let ms := duration.getD defaultDurationMs
  [.own (.ensureConnected host port), .own (.validate rows)] ++ loadRows rows ++ [.own .cancelTimer] ++ send clearWord
    ++ [.own .settle, .port (.cmd (settextWord (rowCount rows))), .own .checkErr, .port .takePacket]
    ++ (if ms = 0 then [] else send revealWord ++ [.own (.startTimer ms)]) ++ [.own .ret]

/-- `API.Reveal(host, port)` (44 R154). -/
def apiReveal (host : String) (port : Nat) : List HostOp :=
  [.own (.ensureConnected host port)] ++ send revealWord ++ [.own .ret]

/-- `API.Clear(host, port)` (44 R154): it does not cancel a pending auto-clear timer. -/
def apiClear (host : String) (port : Nat) : List HostOp :=
  [.own (.ensureConnected host port)] ++ send clearWord ++ [.own .ret]

/-- The host's own check of a request: the same three checks as the block's, in the same order (44 R161). -/
def requestError (rows : List (List Byte)) : Option CmdError :=
  if maxRows < rows.length then some .tooManyRows
  else if rows.length = 0 then some .invalidRowSelection
  else if rows.any (fun t => rowWidth < t.length) then some .rowTooLong
  else none

/-- Activity `i` goes on with the operations `ops`. -/
def setAct (i : Nat) (ops : List HostOp) (s : State) : State :=
  { s with acts := s.acts.set i ops }

/-- What a caller does after a call that failed: the rest of the call, up to its `ret`, is not executed, and
a caller that awaits its calls in sequence goes on with what follows (44 R157, R158; log 34). -/
def afterCall : List HostOp → List HostOp
  | [] => []
  | op :: ops => if op = .own .ret then ops else afterCall ops

/-- The call at the head of activity `i` ends with the result `r` (44 R158, R161). -/
def endCall (i : Nat) (r : CallResult) (next : List HostOp) (s : State) : State :=
  { s with acts := s.acts.set i next, session.results := s.session.results ++ [r] }

/-- The session's open connection is lost: the host notes it, and no writable connection exists any more. -/
def loseLink (s : State) : State :=
  if s.session.conn = .connected then
    { s with
      session.conn := .disconnected
      session.lost := s.session.lost ++ s.session.handle.toList }
  else s

/-- An error or close of the connection `handle` (44 R158): the session's own connection is lost; the loss of
one that a later connection has superseded is only noted; what is not open cannot be lost (log 27, 38). -/
def loseConnection (handle : Nat) (s : State) : State :=
  if s.session.handle = some handle then loseLink s
  else if handle < s.session.opened && !s.session.lost.contains handle then
    { s with session.lost := s.session.lost ++ [handle] }
  else s

/-- A reset while `BUSY = 1` tears the packet in flight: the host treats the link as uninitialised, so that
its next call does the boot over again (70 R191, R192; log 26). -/
def tearLink (s : State) : State :=
  if s.busy then loseLink s else s

/-- `ensureConnected` (44 R152): nothing on a writable connection, otherwise open one (log 30). -/
def ensureConnected (host : String) (port : Nat) (i : Nat) (rest : List HostOp) (s : State) : State :=
  if s.session.conn = .connected then setAct i rest s
  else
    { s with
      acts := s.acts.set i (.own .awaitConnect :: rest)
      session.conn := .connecting
      session.peer := some (host, port) }

/-- A connection attempt ends (44 R152, log 18): on success the handshake follows at once, and a check that
it did not fail; on failure the call fails and no further step of it executes. With no outcome given yet
the attempt goes on. The new connection is the session's from here on (log 38), and
writable for every activity at once, before its handshake is out: DESIGN CHOICE (log 37). A connection that
another call has opened meanwhile stays when this attempt fails: DESIGN CHOICE (log 33; 44 R158 scopes a
failure to the failing call). -/
def connectionEnds (i : Nat) (rest : List HostOp) (s : State) : State :=
  match s.session.dials with
  | [] => s
  | true :: ds =>
    { s with
      acts := s.acts.set i (connectOps s.params ++ .own (.handshakeDone s.session.opened) :: rest)
      session.conn := .connected
      session.handle := some s.session.opened
      session.opened := s.session.opened + 1
      session.dials := ds }
  | false :: ds =>
    endCall i .connectFailed (afterCall rest)
      { s with
        session.conn := if s.session.conn = .connected then .connected else .disconnected
        session.dials := ds }

/-- The handshake is out: if the connection it was for was lost meanwhile it failed, and with it the call (44
R158; log 27). -/
def handshakeEnds (handle : Nat) (i : Nat) (rest : List HostOp) (s : State) : State :=
  if handle ∈ s.session.lost then endCall i .connectFailed (afterCall rest) s else setAct i rest s

/-- Step 2 of `API.SetText` (44 R153): the check of the host that makes one (44 R161, log 17). -/
def validateRequest (rows : List (List Byte)) (i : Nat) (rest : List HostOp) (s : State) : State :=
  match s.params.hostChecksFirst, requestError rows with
  | true, some e => endCall i (.rejected (errCode e)) (afterCall rest) s
  | _, _ => setAct i rest s

/-- The host reads `st_err`; a failed command fails the call (60 R173, R178; log 22). -/
def checkErr (i : Nat) (rest : List HostOp) (s : State) : State :=
  if stErr s = errOk then setAct i rest s else endCall i (.rejected (stErr s)) (afterCall rest) s

/-- The host waits until `SETTLE_MS` after the last packet's end (44 R155, log 19). -/
def settle (s : State) : State :=
  { s with session.now := max s.session.now s.session.settleUntil }

/-- What an operation of the session or its environment does; `rest` is what follows it in activity `i`. -/
def sessionOp (op : SessionOp) (i : Nat) (rest : List HostOp) (s : State) : State :=
  match op with
  | .ensureConnected host port => ensureConnected host port i rest s
  | .awaitConnect => connectionEnds i rest s
  | .handshakeDone handle => handshakeEnds handle i rest s
  | .validate rows => validateRequest rows i rest s
  | .cancelTimer => { setAct i rest s with session.timer := none }
  | .settle => settle (setAct i rest s)
  | .checkErr => checkErr i rest s
  | .startTimer ms => { setAct i rest s with session.timer := some (s.session.now + ms) }
  | .ret => endCall i .returned rest s
  | .elapse ms => { setAct i rest s with session.now := s.session.now + ms }
  | .transportError handle => loseConnection handle (setAct i rest s)

/-- Whether the auto-clear timer is due (44 R156). -/
def timerDue (s : State) : Bool :=
  match s.session.timer with
  | some t => t ≤ s.session.now
  | none => false

/-- The auto-clear timer fires (44 R156): it is pending no more, and a `CLEAR` is sent like any other
command, by an activity of its own (log 20). -/
def fireTimer (s : State) : State :=
  { s with acts := s.acts ++ [send clearWord], session.timer := none }

/-- Before the first byte of a packet the host lets the settle delay pass, whoever sent the packet before
(44 R155, log 19). -/
def settleFirst (s : State) : State :=
  if s.busy && s.idx == 0 then settle s else s

/-- The host's note of a packet's end, from which the settle delay counts (44 R155). -/
def noteLast (s : State) : State :=
  if s.busy && atLast s then
    { s with session.settleUntil := s.session.now + s.params.settleMs }
  else s

/-- What the host does by itself when it takes a byte from `TX` (44 R155). -/
def hostTakes (s : State) : State := noteLast (settleFirst s)

end Sys2Proof.Machine
end

