-- ==== Sys2Proof/Machine/Drive.lean ====
section
/-! DEFINITION. Which move the step makes: the operations the host presents at the ports (10_state R18), the
hold while `BUSY = 1`, and the choice among several enabled moves (log 1, log 2). -/

namespace Sys2Proof.Machine

/-- A move of the machine: the next operation of a host activity, or the auto-clear timer fires. -/
inductive Move where
  | act (i : Nat)
  | fire
  deriving DecidableEq, Repr

/-- Whether a port operation can happen now: a transfer needs the port's `valid` and `ready` both (10_state
R18). -/
def portReady (s : State) (op : PortOp) : Bool :=
  match op with
  | .rst => true
  | .wr _ => wrReady s
  | .cmd _ => cmdReady s
  | .tx => txValid s
  | .takePacket => true

/-- Whether an operation can happen now: the end of a connection attempt needs its outcome, the session's
other operations need nothing. -/
def opEnabled (s : State) (op : HostOp) : Bool :=
  match op with
  | .port op => portReady s op
  | .own op => op != .awaitConnect || !s.session.dials.isEmpty

/-- The indices of the activities whose next operation can happen, the first activity being number `k`. -/
def enabledActs (s : State) : Nat → List (List HostOp) → List Move
  | _, [] => []
  | k, [] :: acts => enabledActs s (k + 1) acts
  | k, (op :: _) :: acts =>
    if opEnabled s op then .act k :: enabledActs s (k + 1) acts else enabledActs s (k + 1) acts

/-- Every move that can happen now. -/
def enabledMoves (s : State) : List Move :=
  (if timerDue s then [.fire] else []) ++ enabledActs s 0 s.acts

/-- The move that happens, with the state in which the choice has been noted: the only enabled one, or one
of several by the free value (10_state R18, 44 R157, 70 R195; log 2). -/
def chooseMove (s : State) : Option (Move × State) :=
  match enabledMoves s with
  | [] => none
  | [m] => some (m, s)
  | m :: ms =>
    some ((m :: ms).getD (Config.pick s.sched % (m :: ms).length) m, { s with sched := s.sched + 1 })

/-- A `TX` transfer (43 R130). A packet of one of the table's formats leaves by its row's meaning; `PKT`
holds no other (43 R133), and if it did its bytes would leave all the same. The host keeps its settle
delay (44 R155). -/
def txMove (s : State) : Answer :=
  match decode (.tx s.pkt) with
  | .ok i => exec i (hostTakes s)
  | .error _ => txTransfer (hostTakes s)

/-- A port operation at the head of activity `i` happens; `rest` follows it there. The block works on the
state in which the host has moved on. -/
def portOp (op : PortOp) (i : Nat) (rest : List HostOp) (s : State) : Answer :=
  match op with
  | .rst => .next (resetBlock (tearLink (setAct i rest s)))
  | .wr w => exec (decodeWr w) (setAct i rest s)
  | .cmd w => exec (decodeCmd w) (setAct i rest s)
  | .tx => txMove (setAct i rest s)
  | .takePacket =>
    if s.busy then txMove (if atLast s then setAct i rest s else s)
    else .next (setAct i rest s)

/-- A move happens. -/
def runMove (m : Move) (s : State) : Answer :=
  match m with
  | .fire => .next (fireTimer s)
  | .act i =>
    match s.acts[i]? with
    | some (.port op :: rest) => portOp op i rest s
    | some (.own op :: rest) => .next (sessionOp op i rest s)
    | _ => .next s

end Sys2Proof.Machine
end

