-- ==== Sys2Proof/Machine/Step.lean ====
section
/-! DEFINITION. One step of block and host: one move, a port transfer or a step of the host; where no move
is enabled the block waits and the state stays as it is (10_state R21, 70 R197; log 3). -/

namespace Sys2Proof.Machine

/-- One step. -/
def step (s : State) : Host.Outcome State Fault Refusal :=
  match chooseMove s with
  | none => .next s
  | some (m, s') => runMove m s'

/-- `s` with the instruction of a table row's word placed so that the very next step runs it (log 7): a `WR`
or `CMD` word is presented on its port by the one host activity, with the block ready for it; a wire row's
packet is put in flight at its first byte and the host takes a byte. -/
def State.withFetchWord (s : State) (nbits w : Nat) : State :=
  match tableItem nbits w with
  | none => s
  | some (.wr v) =>
    { s with acts := [[.port (.wr v)]], busy := false, idx := 0, session.timer := none }
  | some (.cmd v) =>
    { s with acts := [[.port (.cmd v)]], busy := false, idx := 0, session.timer := none }
  | some (.tx bytes) =>
    { s with acts := [[.port .tx]], pkt := bytes, busy := true, idx := 0, session.timer := none }

end Sys2Proof.Machine
end

