-- ==== Sys2Proof/Safety.lean ====
section
/-! DEFINITION. What a safe state and a safe run are: the invariant every step keeps, and the transmit
history as a sequence of whole packets (43 R131, R133). -/

namespace Sys2Proof.Machine

/-- The bytes of a packet of one of the table's formats, well formed (43 R133, 30 R57). -/
def isWirePacket (bytes : List Byte) : Bool :=
  match decode (.tx bytes) with
  | .ok i => i.wf
  | .error _ => false

/-- The invariant of the machine. -/
structure BlockInv (s : State) : Prop where
  /-- the row buffer is in canonical form, and lists cells only (10_state R11) -/
  memory : s.rowbuf.wf = true
  /-- `PKT` is empty or a whole packet the framer can build (10_state R14, 43 R133) -/
  packet : s.pkt = [] ∨ isWirePacket s.pkt = true
  /-- while `BUSY = 1`, `0 <= IDX < len(PKT)` (10_state R15) -/
  offered : s.busy = true → s.idx.toNat < s.pkt.length
  /-- while `BUSY = 0`, `IDX` is 0 (10_state R15) -/
  idle : s.busy = false → s.idx = 0
  /-- after a command that failed, `PKT` is empty and `BUSY` is 0 (60 R173) -/
  failed : s.err ≠ errOk → s.pkt = [] ∧ s.busy = false

/-- A whole packet as it stands in the history: `last` on its last byte only (10_state R18). -/
def marked : List Byte → List TxItem
  | [] => []
  | [b] => [⟨b, true⟩]
  | b :: c :: bs => ⟨b, false⟩ :: marked (c :: bs)

/-- The part of the packet in flight that has left (43 R130, R131). -/
def inFlight (s : State) : List TxItem :=
  if s.busy then (s.pkt.take s.idx.toNat).map (fun b => ⟨b, false⟩) else []

/-- `TXH` is whole packets, then at most one incomplete packet, the one in flight (43 R131). -/
def WholePackets (s : State) : Prop :=
  ∃ packets : List (List Byte),
    (∀ p ∈ packets, isWirePacket p = true) ∧ s.txh = packets.flatMap marked ++ inFlight s

/-- The move `m` asserts `rst` in the state `s`. -/
def assertsReset (m : Move) (s : State) : Bool :=
  match m with
  | .fire => false
  | .act i => match s.acts[i]? with
    | some (.port .rst :: _) => true
    | _ => false

/-- The step at `s` is a reset. -/
def stepResets (s : State) : Bool :=
  match chooseMove s with
  | none => false
  | some (m, s') => assertsReset m s'

/-- Whether the host has a transfer to present with this operation left to do (70 R200): a `WR` or `CMD` word,
or the handshake of a connection that is still to be opened (44 R152, log 35). What `TX` transfers, the block
offers; a reset is no transfer; the session's other operations present nothing. -/
def presents (s : State) : HostOp → Bool
  | .port .rst => false
  | .port (.wr _) => true
  | .port (.cmd _) => true
  | .port .tx => false
  | .port .takePacket => false
  | .own (.ensureConnected _ _) => s.session.conn != .connected
  | .own .awaitConnect => true
  | .own (.handshakeDone _) => false
  | .own (.validate _) => false
  | .own .cancelTimer => false
  | .own .settle => false
  | .own .checkErr => false
  | .own (.startTimer _) => false
  | .own .ret => false
  | .own (.elapse _) => false
  | .own (.transportError _) => false

/-- A run of the block is over: the host has no further transfer to present and `BUSY = 0` (70 R200). Whether a
timer of the host is still pending is not asked. -/
def runOver (s : State) : Bool := s.acts.all (fun ops => !ops.any (presents s)) && !s.busy

/-- The host is done as well: it has no operation of any kind left, and no timer is pending, since a run that
ends with one is not a finished host run (93 U1). -/
def hostDone (s : State) : Bool := s.acts.all List.isEmpty && !s.busy && s.session.timer.isNone

/-- The result of a run: `TXH` and the `ERR` code of each accepted command (70 R200). -/
def runResult (s : State) : List TxItem × List (BitVec 2) := (s.txh, s.errs)

/-- What a command latches in `OPR` (10_state R13, 30 R58); none for an instruction that is no command. -/
def commandOpr : Instr → Option Opr
  | .pagesel page nrows => some ⟨0b00, page, nrows⟩
  | .settext page nrows => some ⟨0b01, page, nrows⟩
  | .reveal page nrows => some ⟨0b10, page, nrows⟩
  | .clear page nrows => some ⟨0b11, page, nrows⟩
  | .wrch _ _ _ => none
  | .wrlen _ _ _ => none
  | .wirePageSel _ _ _ => none
  | .wireSetText1 _ => none
  | .wireSetText2 _ _ => none
  | .wireSetText3 _ _ _ => none
  | .wireReveal => none
  | .wireClear => none

/-- Every row of a request of `n` rows has at most 35 characters (43 R124). -/
def RowsFit (s : State) (n : BitVec 3) : Prop :=
  ∀ r : Fin 3, r.val < n.toNat → (rowLen s r).toNat ≤ 35

/-- Every cell a request of `n` rows reads holds a value (43 R125, 70 R193). -/
def RowsWritten (s : State) (n : BitVec 3) : Prop :=
  ∀ r : Fin 3, r.val < n.toNat → ∀ k < (rowLen s r).toNat,
    (memRead s.rowbuf (cellAddr r.val k)).isSome = true

/-- `SETTEXT n` has a packet: one to three rows, each at most 35 characters, each written (70 R193). -/
def RequestReady (s : State) (n : BitVec 3) : Prop :=
  (1 ≤ n.toNat ∧ n.toNat ≤ 3) ∧ RowsFit s n ∧ RowsWritten s n

/-- The two states hold the same block (10_state R10): records, parameters and host may differ. -/
def SameBlock (s t : State) : Prop :=
  t.rowbuf = s.rowbuf ∧ t.rowlen0 = s.rowlen0 ∧ t.rowlen1 = s.rowlen1 ∧ t.rowlen2 = s.rowlen2 ∧
  t.opr = s.opr ∧ t.pkt = s.pkt ∧ t.idx = s.idx ∧ t.busy = s.busy ∧ t.err = s.err

end Sys2Proof.Machine
end

