-- ==== Sys2Proof/Certificates/Slice0/Obligations.lean ====
section
/-! DEFINITION. The statements for the provers, each from the rule or section its docstring names. -/

open Sys2Proof Sys2Proof.Machine

/-! ## The host writes -/

/-- 43 R120: with `BUSY = 0`, `WRCH` gives its cell the byte and changes nothing else; a write to a non-cell
changes nothing. (The spec's own decision D3, D13.) -/
def Obligations.WrchWritesItsCell : Prop :=
  ∀ (r : BitVec 2) (k : BitVec 6) (b : Byte) (s : State),
    (s.busy = false → ¬ (r.toNat ≤ 2 ∧ k.toNat ≤ 34) → exec (.wrch r k b) s = .next s) ∧
    (s.busy = false → r.toNat ≤ 2 ∧ k.toNat ≤ 34 →
      ∃ t, exec (.wrch r k b) s = .next t ∧ t = { s with rowbuf := t.rowbuf } ∧
        ∀ a, memRead t.rowbuf a =
          if a = cellAddr r.toNat k.toNat then some b else memRead s.rowbuf a)

/-- 43 R121: with `BUSY = 0`, `WRLEN` sets the length of its row and changes nothing else, whatever the
ignored bits are; row 3 is dropped. (The spec's own decision D3, D13.) -/
def Obligations.WrlenWritesItsLength : Prop :=
  ∀ (r : BitVec 2) (x : BitVec 8) (n : BitVec 6) (s : State), s.busy = false →
    ∃ t, exec (.wrlen r x n) s = .next t ∧
      t = { s with rowlen0 := t.rowlen0, rowlen1 := t.rowlen1, rowlen2 := t.rowlen2 } ∧
      ∀ q : Fin 3, rowLen t q = if q.val = r.toNat then n else rowLen s q

/-! ## The commands -/

/-- 43 R123: the five bytes of the page-select packet, for every page, the page split by the rule's own
`div` and `and`; `ERR` 0, `BUSY` 1, nothing else but `OPR` and `IDX` (43 R122). `PAGE_WIDTH` is 12, the
port's whole page field (00_scope R4). -/
def Obligations.PageselBuildsItsPacket : Prop :=
  ∀ (p : BitVec 12) (n : BitVec 3) (s : State), s.busy = false → 12 ≤ s.params.pageWidth →
    exec (.pagesel p n) s = .next
      { s with
        opr := ⟨0b00, p, n⟩
        pkt := [0x0E, 0x15, ham (BitVec.ofNat 4 (p.toNat / 256)),
          ham (BitVec.ofNat 4 ((p &&& 0xF0).toNat / 16)), ham (BitVec.ofNat 4 (p &&& 0x0F).toNat)]
        idx := 0, busy := true, err := 0b00, errs := s.errs ++ [0b00] }

/-- 43 R128: `REVEAL` builds the packet `10`, its only byte the last, and touches nothing else. -/
def Obligations.RevealBuildsItsByte : Prop :=
  ∀ (p : BitVec 12) (n : BitVec 3) (s : State), s.busy = false →
    ∃ t, exec (.reveal p n) s = .next t ∧
      t = { s with
        opr := ⟨0b10, p, n⟩, pkt := [0x10], idx := 0, busy := true, err := 0b00,
        errs := s.errs ++ [0b00] } ∧
      txData t = some 0x10 ∧ txLast t = true

/-- 43 R129: `CLEAR` builds the packet `98`, its only byte the last, and touches nothing else, neither
`ROWBUF` nor `ROWLEN`. -/
def Obligations.ClearBuildsItsByte : Prop :=
  ∀ (p : BitVec 12) (n : BitVec 3) (s : State), s.busy = false →
    ∃ t, exec (.clear p n) s = .next t ∧
      t = { s with
        opr := ⟨0b11, p, n⟩, pkt := [0x98], idx := 0, busy := true, err := 0b00,
        errs := s.errs ++ [0b00] } ∧
      txData t = some 0x98 ∧ txLast t = true

/-- 43 R125, R132, R127: a `SETTEXT` whose rows fit and are written is accepted; its packet has `2 + 42 n`
bytes and begins `8F` and the row-count code; only `OPR`, `PKT`, `IDX`, `BUSY`, `ERR` change. -/
def Obligations.SettextAcceptsReadyRequest : Prop :=
  ∀ (p : BitVec 12) (n : BitVec 3) (s : State), s.busy = false → RequestReady s n →
    ∃ t, exec (.settext p n) s = .next t ∧
      t = { s with
        opr := ⟨0b01, p, n⟩, pkt := t.pkt, idx := 0, busy := true, err := 0b00,
        errs := s.errs ++ [0b00] } ∧
      t.pkt.length = 2 + 42 * n.toNat ∧
      t.pkt[0]? = some 0x8F ∧ t.pkt[1]? = [0xC7, 0x8C, 0x9B][n.toNat - 1]?

/-- 43 R125: a `SETTEXT` of one to three rows that fit, whose cells hold the texts `ts`, builds `8F`, the
row-count code and the row blocks of those texts, in row order; the row buffer and the lengths stay. -/
def Obligations.SettextBuildsItsPacket : Prop :=
  ∀ (p : BitVec 12) (n : BitVec 3) (s : State) (ts : Fin 3 → List Byte), s.busy = false →
    1 ≤ n.toNat → n.toNat ≤ 3 → RowsFit s n →
    (∀ r : Fin 3, r.val < n.toNat → (ts r).length = (rowLen s r).toNat ∧
      ∀ k (h : k < (ts r).length), memRead s.rowbuf (cellAddr r.val k) = some (ts r)[k]) →
    ∃ (t : State) (block : Fin 3 → List Byte), exec (.settext p n) s = .next t ∧
      (∀ r : Fin 3, r.val < n.toNat → rowBlock s.params r.val n.toNat (ts r) = .ok (block r)) ∧
      t.pkt = [0x8F] ++ ([0xC7, 0x8C, 0x9B][n.toNat - 1]?).toList ++
        (([0, 1, 2] : List (Fin 3)).take n.toNat).flatMap block ∧
      t.err = 0b00 ∧ t.busy = true ∧ t.idx = 0 ∧ t.rowbuf = s.rowbuf ∧ t.rowlen0 = s.rowlen0 ∧
      t.rowlen1 = s.rowlen1 ∧ t.rowlen2 = s.rowlen2

/-- 43 R126: the 42 bytes of a row block: the placement of row `i` of `n` with `highPosition` 0, `CR VT VT`,
the encoded padded text, `LF LF`; under `FRAME_CTRL = THROUGH_PARITY` only the two last bytes differ. -/
def Obligations.RowBlockLayout : Prop :=
  ∀ (p : Params) (i n : Nat) (t : List Byte), i < n → n ≤ 3 → t.length ≤ 35 →
    ∃ p0 p1 block, place i n false = .ok (p0, p1) ∧ rowBlock p i n t = .ok block ∧
      block.length = 42 ∧
      block = [p0, p1, 0x0D, 0x0B, 0x0B] ++ encText p (pad p t) ++
        (if p.frameCtrl = .literal then [0x0A, 0x0A] else [0x8A, 0x8A])

/-- 43 R126, 42 R111, 30 R53: in the packet of a `SETTEXT`, row block `i` begins at byte `2 + 42 i` with
`02` and the row's slot code, then `CR VT VT`, and ends with `LF LF`, literal or, under
`FRAME_CTRL = THROUGH_PARITY`, `8A 8A`. -/
def Obligations.SettextFramesEachRow : Prop :=
  ∀ (p : BitVec 12) (n : BitVec 3) (s t : State), s.busy = false → RequestReady s n →
    exec (.settext p n) s = .next t →
    ∀ i < n.toNat,
      t.pkt[2 + 42 * i]? = some 0x02 ∧
      t.pkt[3 + 42 * i]? = [0x38, 0x64, 0x49][n.toNat - 1 - i]? ∧
      t.pkt[4 + 42 * i]? = some 0x0D ∧
      t.pkt[5 + 42 * i]? = some 0x0B ∧
      t.pkt[6 + 42 * i]? = some 0x0B ∧
      t.pkt[42 + 42 * i]? = some (if s.params.frameCtrl = .literal then 0x0A else 0x8A) ∧
      t.pkt[43 + 42 * i]? = some (if s.params.frameCtrl = .literal then 0x0A else 0x8A)

/-- 43 R132, 41 R90, R93: in the packet of a `SETTEXT`, the character in cell `k` of row `i`, of length
`L`, is at byte `7 + 42 i + ceil((35 - L) / 2) + k`, remapped and parity-encoded, and every other one of the
35 text bytes of the row is the encoded pad byte. -/
def Obligations.SettextPlacesEachCharacter : Prop :=
  ∀ (p : BitVec 12) (n : BitVec 3) (s t : State), s.busy = false → RequestReady s n →
    exec (.settext p n) s = .next t →
    ∀ i : Fin 3, i.val < n.toNat → ∀ len, len = (rowLen s i).toNat →
      (∀ k < len, ∀ c, memRead s.rowbuf (cellAddr i.val k) = some c →
        t.pkt[7 + 42 * i.val + (35 - len + 1) / 2 + k]? =
          some (par s.params.parityMode (remap s.params c))) ∧
      (∀ j < 35, (j < (35 - len + 1) / 2 ∨ (35 - len + 1) / 2 + len ≤ j) →
        t.pkt[7 + 42 * i.val + j]? =
          some (par s.params.parityMode (remap s.params s.params.padByte)))

/-- 60 R171, R173: more than three rows fail with `TooManyRows`, whatever the row lengths are. -/
def Obligations.SettextRejectsTooManyRows : Prop :=
  ∀ (p : BitVec 12) (n : BitVec 3) (s : State), s.busy = false → 3 < n.toNat →
    exec (.settext p n) s = .next
      { s with
        opr := ⟨0b01, p, n⟩, pkt := [], idx := 0, busy := false, err := 0b01,
        errs := s.errs ++ [0b01] }

/-- 60 R174, R173: no row at all fails with `InvalidRowSelection`. (The spec's own decision D6.) -/
def Obligations.SettextRejectsZeroRows : Prop :=
  ∀ (p : BitVec 12) (n : BitVec 3) (s : State), s.busy = false → n.toNat = 0 →
    exec (.settext p n) s = .next
      { s with
        opr := ⟨0b01, p, n⟩, pkt := [], idx := 0, busy := false, err := 0b11,
        errs := s.errs ++ [0b11] }

/-- 60 R172, R173: a row of the request longer than 35 fails with `RowTooLong`; a longer row beyond the
request does not. -/
def Obligations.SettextRejectsLongRow : Prop :=
  ∀ (p : BitVec 12) (n : BitVec 3) (s : State), s.busy = false → 1 ≤ n.toNat → n.toNat ≤ 3 →
    (¬ RowsFit s n →
      exec (.settext p n) s = .next
        { s with
          opr := ⟨0b01, p, n⟩, pkt := [], idx := 0, busy := false, err := 0b10,
          errs := s.errs ++ [0b10] }) ∧
    (RowsFit s n → ∀ t, exec (.settext p n) s = .next t → t.err = 0b00)

/-- 60 R176: a `SETTEXT` that passes validation and meets a cell that was never written faults with the
first such cell in reading order (row by row, cell by cell); no byte is picked. -/
def Obligations.SettextFaultsOnUnwrittenCell : Prop :=
  ∀ (p : BitVec 12) (n : BitVec 3) (s : State) (r : Fin 3) (k : Nat), s.busy = false →
    n.toNat ≤ 3 → RowsFit s n → r.val < n.toNat → k < (rowLen s r).toNat →
    memRead s.rowbuf (cellAddr r.val k) = none →
    (∀ q : Fin 3, ∀ j < (rowLen s q).toNat, (q < r ∨ (q = r ∧ j < k)) →
      (memRead s.rowbuf (cellAddr q.val j)).isSome = true) →
    exec (.settext p n) s = .fault (.unwrittenCell r.val k)

/-- 43 R125, 92 D21: the packet of `SETTEXT n` and its error depend on the parameters and on the lengths and
cells of the rows below `n` alone: not on the page operand, on other rows, on old text beyond a length, nor
on anything sent before. -/
def Obligations.SettextReadsOnlyItsRows : Prop :=
  ∀ (n : BitVec 3) (p p' : BitVec 12) (s s' t : State), s.busy = false → s'.busy = false →
    s'.params = s.params →
    (∀ r : Fin 3, r.val < n.toNat → rowLen s' r = rowLen s r ∧
      ∀ k < (rowLen s r).toNat,
        memRead s'.rowbuf (cellAddr r.val k) = memRead s.rowbuf (cellAddr r.val k)) →
    exec (.settext p n) s = .next t →
    ∃ t', exec (.settext p' n) s' = .next t' ∧ t'.pkt = t.pkt ∧ t'.err = t.err

/-- 10_state R13, R17: every accepted command latches all three fields of its port, whether or not it fails,
and overwrites `ERR` with its own result, which is also recorded: 0 for `PAGESEL`, `REVEAL`, `CLEAR`, and
for `SETTEXT` the code of the first check that fails, or 0. (The spec's own decision D2, D7.) -/
def Obligations.CommandsLatchOperandsAndErr : Prop :=
  ∀ (i : Instr) (o : Opr) (s t : State), commandOpr i = some o → s.busy = false →
    exec i s = .next t →
    t.opr = o ∧ t.errs = s.errs ++ [t.err] ∧
    ((∀ p n, i ≠ .settext p n) → t.err = 0b00) ∧
    (∀ p n, i = .settext p n →
      (3 < n.toNat → t.err = 0b01) ∧ (n.toNat = 0 → t.err = 0b11) ∧
      (1 ≤ n.toNat → n.toNat ≤ 3 →
        (¬ RowsFit s n → t.err = 0b10) ∧ (RowsFit s n → t.err = 0b00)))

/-- 43 R122, 60 R173: what a command leaves unchanged, accepted or failed: the row buffer, the lengths, the
transmit history, the parameters and the host. -/
def Obligations.CommandsFrame : Prop :=
  ∀ (i : Instr) (o : Opr) (s t : State), commandOpr i = some o → exec i s = .next t →
    t.rowbuf = s.rowbuf ∧ t.rowlen0 = s.rowlen0 ∧ t.rowlen1 = s.rowlen1 ∧ t.rowlen2 = s.rowlen2 ∧
    t.txh = s.txh ∧ t.params = s.params ∧ t.acts = s.acts ∧ t.sched = s.sched ∧
    t.session = s.session ∧ ∀ a, memRead t.rowbuf a = memRead s.rowbuf a

/-- 10_state R14, R17: an instruction that is no command leaves `PKT`, `ERR`, `OPR` and the record of codes
as they are. -/
def Obligations.OnlyCommandsWritePacketAndErr : Prop :=
  ∀ (i : Instr) (s t : State), commandOpr i = none → exec i s = .next t →
    t.pkt = s.pkt ∧ t.err = s.err ∧ t.opr = s.opr ∧ t.errs = s.errs

/-- 10_state R11, R12: nothing but `WRCH` writes a cell, nothing but `WRLEN` a length. -/
def Obligations.OnlyWritesChangeRows : Prop :=
  ∀ (i : Instr) (s t : State), exec i s = .next t →
    ((∀ r k b, i ≠ .wrch r k b) → t.rowbuf = s.rowbuf) ∧
    ((∀ r x n, i ≠ .wrlen r x n) → ∀ q, rowLen t q = rowLen s q)

/-- 10_state R18: while a packet is in flight every host operation waits and changes nothing. -/
def Obligations.HostOperationsWaitWhileBusy : Prop :=
  ∀ (i : Instr) (s : State), (∀ bytes, encode i ≠ .tx bytes) → s.busy = true →
    exec i s = .next s

/-! ## TX -/

/-- 43 R130: the `TX` step. With `BUSY = 1` and a host that takes a byte, it gets the byte at `IDX`, marked
last exactly at the packet's end; `IDX` goes on, or back to 0 with `BUSY` 0; `PKT`, `ERR` and everything
else of the block stay. -/
def Obligations.TxStepHandsOutOneByte : Prop :=
  ∀ (s s' : State) (k : Nat) (rest : List HostOp) (b : Byte),
    chooseMove s = some (.act k, s') → s.acts[k]? = some (.port .tx :: rest) →
    s.busy = true → s.pkt[s.idx.toNat]? = some b →
    ∃ t, step s = .next t ∧
      t.txh = s.txh ++ [⟨b, decide (s.idx.toNat = s.pkt.length - 1)⟩] ∧
      (s.idx.toNat = s.pkt.length - 1 → t.idx = 0 ∧ t.busy = false) ∧
      (s.idx.toNat ≠ s.pkt.length - 1 → t.idx = s.idx + 1 ∧ t.busy = true) ∧
      t.pkt = s.pkt ∧ t.err = s.err ∧ t.errs = s.errs ∧ t.opr = s.opr ∧ t.rowbuf = s.rowbuf ∧
      t.rowlen0 = s.rowlen0 ∧ t.rowlen1 = s.rowlen1 ∧ t.rowlen2 = s.rowlen2 ∧ t.params = s.params

/-- 43 R130: each of the six wire rows (W-PS, W-ST1, W-ST2, W-ST3, W-1 REVEAL, W-1 CLEAR), when its packet is
in flight, hands out the byte at `IDX`, marked last at the packet's end, and changes nothing but `TXH`,
`IDX` and `BUSY`. That a wire row's instruction is this transfer is the model's choice (log 6). -/
def Obligations.WireRowsHandOutNextByte : Prop :=
  ∀ (i : Instr) (bytes : List Byte) (b : Byte) (s : State), encode i = .tx bytes →
    s.busy = true → s.pkt = bytes → bytes[s.idx.toNat]? = some b →
    exec i s = .next
      (if s.idx.toNat = bytes.length - 1 then
        { s with txh := s.txh ++ [⟨b, true⟩], idx := 0, busy := false }
      else { s with txh := s.txh ++ [⟨b, false⟩], idx := s.idx + 1 })

/-- 10_state R18: with nothing on `TX`, or another packet in flight, a wire row's transfer waits (the
model's choice, log 6). -/
def Obligations.WireRowsWaitForTheirPacket : Prop :=
  ∀ (i : Instr) (bytes : List Byte) (s : State), encode i = .tx bytes →
    s.busy = false ∨ s.pkt ≠ bytes → exec i s = .next s

/-- 43 R130, R131, 70 R197: a host that takes the packet in flight, and does nothing else, gets all its
remaining bytes in order, the last marked, in as many steps; then `BUSY` is 0 again. -/
def Obligations.PacketLeavesWhole : Prop :=
  ∀ s : State, s.acts = [[.port .takePacket]] → s.session.timer = none → s.busy = true →
    s.idx.toNat < s.pkt.length → s.pkt.length ≤ 128 →
    ∃ t, Host.Core.run core (s.pkt.length - s.idx.toNat) s = .next t ∧ t.busy = false ∧ t.idx = 0 ∧
      t.pkt = s.pkt ∧ t.txh = s.txh ++ marked (s.pkt.drop s.idx.toNat)

/-! ## Steps -/

/-- The step runs the decoded instruction: a word the chosen activity presents on `WR` or `CMD` is decoded
for that port and executed, in the state in which that activity has moved on (10_state R18; log 1). -/
def Obligations.StepRunsPresentedWord : Prop :=
  ∀ (s s' : State) (k : Nat) (rest : List HostOp) (w : PortWord) (i : Instr),
    chooseMove s = some (.act k, s') →
    (s'.acts[k]? = some (.port (.wr w) :: rest) → decode (.wr w) = .ok i →
      step s = exec i (setAct k rest s')) ∧
    (s'.acts[k]? = some (.port (.cmd w) :: rest) → decode (.cmd w) = .ok i →
      step s = exec i (setAct k rest s'))

/-- The step runs the decoded packet: when the host takes a byte, the packet in flight is decoded and its
row executed, after the host has moved on, let the settle delay pass before a first byte and noted a
packet's end (log 19); and that is the `TX` step of 43 R130, whichever row it is. That the transfer is the
meaning of a wire row is the model's choice (log 6). -/
def Obligations.StepRunsPacketInFlight : Prop :=
  ∀ (s s' : State) (k : Nat) (rest : List HostOp) (i : Instr),
    chooseMove s = some (.act k, s') → decode (.tx s'.pkt) = .ok i →
    (s'.acts[k]? = some (.port .tx :: rest) →
      step s = exec i (hostTakes (setAct k rest s')) ∧
      step s = txTransfer (hostTakes (setAct k rest s'))) ∧
    (s'.acts[k]? = some (.port .takePacket :: rest) → s'.busy = true →
      step s = exec i (hostTakes (if atLast s' then setAct k rest s' else s')) ∧
      step s = txTransfer (hostTakes (if atLast s' then setAct k rest s' else s')))

/-- 70 R190, R191, 10_state R21: `rst`, in any state, puts the block into its reset state and keeps what was
handed out; after a reset while `BUSY = 1` the host has no initialised link any more. That the recorded
codes stay is log 15, that the rest of the session stays and that an uninitialised link is a lost
connection is log 26: the model's choices. -/
def Obligations.RstResetsBlockInAnyState : Prop :=
  ∀ (s s' : State) (k : Nat) (rest : List HostOp),
    chooseMove s = some (.act k, s') → s'.acts[k]? = some (.port .rst :: rest) →
    ∃ t, step s = .next t ∧ SameBlock State.reset t ∧ t.txh = s.txh ∧ t.errs = s.errs ∧
      t.params = s.params ∧ (s.busy = true → t.session.conn ≠ .connected) ∧
      t.session = if s.busy = true ∧ s.session.conn = .connected then
        { s.session with conn := .disconnected, lost := s.session.lost ++ s.session.handle.toList }
        else s.session

/-- 10_state R18, 70 R197: with a packet in flight and a host that presents only writes and commands,
nothing moves. That a step then answers the state as it is is the model's choice (log 3). -/
def Obligations.HeldTransfersWaitForTx : Prop :=
  ∀ s : State, s.busy = true → s.session.timer = none →
    (∀ ops ∈ s.acts, ∀ op rest, ops = op :: rest →
      (∃ w, op = .port (.wr w)) ∨ (∃ w, op = .port (.cmd w))) →
    step s = .next s

/-- 10_state R14, R18, 43 R131: while a packet is in flight no step but a reset changes `PKT`, the rows,
`OPR` or `ERR`. -/
def Obligations.NothingChangesUnderAPacket : Prop :=
  ∀ s t : State, s.busy = true → stepResets s = false → step s = .next t →
    t.pkt = s.pkt ∧ t.rowbuf = s.rowbuf ∧ t.rowlen0 = s.rowlen0 ∧ t.rowlen1 = s.rowlen1 ∧
    t.rowlen2 = s.rowlen2 ∧ t.opr = s.opr ∧ t.err = s.err ∧ t.errs = s.errs

/-- 43 R130, 00_scope R6: a step adds to `TXH` at most the one pair that `TX` offers, and only while
`BUSY = 1`. -/
def Obligations.StepAddsOnlyTheOfferedByte : Prop :=
  ∀ s t : State, step s = .next t →
    t.txh = s.txh ∨
    (s.busy = true ∧ ∃ b, txData s = some b ∧ t.txh = s.txh ++ [⟨b, txLast s⟩])

/-- 00_scope R4: no step changes a parameter. -/
def Obligations.ParametersNeverChange : Prop :=
  ∀ s t : State, step s = .next t → t.params = s.params

/-- Every instruction has a meaning: no step is refused. -/
def Obligations.NoStepIsRefused : Prop :=
  ∀ (s : State) (x : Refusal), step s ≠ .refused x

/-- 60 R176, 10_state R15: in a state that meets the invariant a step faults only on a cell of the row
buffer that holds no value. -/
def Obligations.OnlyUnwrittenCellsFault : Prop :=
  ∀ (s : State) (f : Fault), BlockInv s → step s = .fault f →
    ∃ r k, f = .unwrittenCell r k ∧ r ≤ 2 ∧ k ≤ 34 ∧ memRead s.rowbuf (cellAddr r k) = none

/-! ## Reset and the invariants -/

/-- 10_state R21: the state after reset. -/
def Obligations.ResetState : Prop :=
  (∀ a, memRead State.reset.rowbuf a = none) ∧ (∀ r, rowLen State.reset r = 0) ∧
  State.reset.opr = ⟨0, 0, 0⟩ ∧ State.reset.pkt = [] ∧ State.reset.idx = 0 ∧
  State.reset.busy = false ∧ State.reset.err = 0b00 ∧ State.reset.txh = [] ∧
  wrReady State.reset = true ∧ cmdReady State.reset = true ∧ txValid State.reset = false

/-- The invariant holds after reset. -/
def Obligations.InvAtReset : Prop := BlockInv State.reset

/-- 10_state R11, R14, R15, 60 R173, 43 R133: every step keeps the invariant: canonical row buffer, `PKT`
empty or a well-formed packet, `IDX` inside it while `BUSY = 1` and 0 otherwise, nothing left of a command
that failed. -/
def Obligations.StepKeepsInv : Prop :=
  ∀ s t : State, BlockInv s → step s = .next t → BlockInv t

/-- The transmit history is whole packets after reset. -/
def Obligations.WholePacketsAtReset : Prop := WholePackets State.reset

/-- 43 R131, R133, 70 R191: every step keeps the transmit history a sequence of whole, well-formed packets
and at most the packet in flight, as long as no reset comes while `BUSY = 1`. -/
def Obligations.StepKeepsWholePackets : Prop :=
  ∀ s t : State, BlockInv s → WholePackets s → (s.busy = true → stepResets s = false) →
    step s = .next t → WholePackets t

/-! ## Encodings -/

/-- Decoding what the encoder gives for a well-formed instruction gives it back, all twelve rows, every
operand at every value (30 R51 to R54, R58, R59). -/
def Obligations.DecodeInvertsEncode : Prop :=
  ∀ i : Instr, i.wf = true → decode (encode i) = .ok i

/-- What decodes, decodes from one bit pattern on one port: encoding gives it back, no bit dropped. -/
def Obligations.EncodeInvertsDecode : Prop :=
  ∀ (item : PortItem) (i : Instr), decode item = .ok i → encode i = item

/-- The words that 30 R58 and R59 and 95 P1 write out decode to the operations they stand for. -/
def Obligations.WordsOfTheSpecDecode : Prop :=
  decode (.cmd 0x04440) = .ok (.pagesel 0x888 0) ∧ decode (.cmd 0x08001) = .ok (.settext 0 1) ∧
  decode (.cmd 0x10000) = .ok (.reveal 0 0) ∧ decode (.cmd 0x18000) = .ok (.clear 0 0) ∧
  decode (.wr 0x04252) = .ok (.wrch 1 2 0x52) ∧ decode (.wr 0x10005) = .ok (.wrlen 0 0 5) ∧
  decode (.tx [0x0E, 0x15, 0xD0, 0xD0, 0xD0]) = .ok (.wirePageSel 0xD0 0xD0 0xD0) ∧
  decode (.tx [0x10]) = .ok .wireReveal ∧ decode (.tx [0x98]) = .ok .wireClear

/-! ## The codec -/

/-- 40 R72: the eight gate equations give the table, for all sixteen nibbles. -/
def Obligations.HamGatesGiveTheTable : Prop := ∀ n : BitVec 4, hamGates n = ham n

/-- 40 R73 (b), (c), (e): two codewords differ in at least four bits, every codeword has odd popcount, none is
a literal control byte. -/
def Obligations.HamCodeProperties : Prop :=
  (∀ m n : BitVec 4, m ≠ n → 4 ≤ popcount (ham m ^^^ ham n)) ∧
  (∀ n : BitVec 4, popcount (ham n) % 2 = 1 ∧ ham n ∉ literalBytes)

/-- 40 R74 to R77: `REMAP` has the cells that the document prints, and in its five open cells the parameters;
it is the identity outside the 22 cells of its explicit domain. First with the codes of `TEXT_CODE`'s
default, then for any text code that gives the characters 22 different codes (log 8, log 16). -/
def Obligations.RemapCellsAndIdentity : Prop :=
  ∀ p : Params,
    (p.textCode = latin1 →
      (∀ c ∈ [((0x40 : Byte), (0x2A : Byte)), (0x60, 0x27), (0x5B, 0x28), (0x5C, 0x2F), (0x5D, 0x29),
          (0x7B, 0x28), (0x7C, 0x49), (0x7D, 0x29), (0x7E, 0x2D), (0xA7, 0x40), (0xC4, 0x5B),
          (0xD6, 0x5C), (0xDC, 0x5D), (0xE4, 0x7B), (0xF6, 0x7C), (0xFC, 0x7D), (0xDF, 0x7E),
          (0xB0, p.remapDegree), (0xC0, p.remapAgrave), (0xC3, p.remapAtilde), (0xC5, p.remapAring),
          (0xC6, p.remapAe)],
        remap p c.1 = c.2) ∧
      (∀ b : Byte, b ∉ [(0x40 : Byte), 0x5B, 0x5C, 0x5D, 0x60, 0x7B, 0x7C, 0x7D, 0x7E, 0xA7, 0xB0, 0xC0,
          0xC3, 0xC4, 0xC5, 0xC6, 0xD6, 0xDC, 0xDF, 0xE4, 0xF6, 0xFC] → remap p b = b)) ∧
    (∀ cells : List (Byte × Byte), cells =
        [(0x40, 0x2A), (0x60, 0x27), (0x5B, 0x28), (0x5C, 0x2F), (0x5D, 0x29), (0x7B, 0x28),
          (0x7C, 0x49), (0x7D, 0x29), (0x7E, 0x2D), (p.textCode.sectionSign, 0x40),
          (p.textCode.capAuml, 0x5B), (p.textCode.capOuml, 0x5C), (p.textCode.capUuml, 0x5D),
          (p.textCode.smallAuml, 0x7B), (p.textCode.smallOuml, 0x7C), (p.textCode.smallUuml, 0x7D),
          (p.textCode.eszett, 0x7E), (p.textCode.degreeSign, p.remapDegree),
          (p.textCode.capAgrave, p.remapAgrave), (p.textCode.capAtilde, p.remapAtilde),
          (p.textCode.capAring, p.remapAring), (p.textCode.capAe, p.remapAe)] →
      ((cells.map Prod.fst).Nodup → ∀ c ∈ cells, remap p c.1 = c.2) ∧
      (∀ b : Byte, b ∉ cells.map Prod.fst → remap p b = b))

/-- 41 R90: `PAD` gives 35 bytes, `ceil((35 - L) / 2)` pad bytes, the text, the remaining pad bytes. -/
def Obligations.PadCentresEveryRow : Prop :=
  ∀ (p : Params) (t : List Byte), t.length ≤ 35 →
    (pad p t).length = 35 ∧
    pad p t = List.replicate ((35 - t.length + 1) / 2) p.padByte ++ t
      ++ List.replicate (35 - t.length - (35 - t.length + 1) / 2) p.padByte

/-- 41 R92, R94: `PAR` keeps bits 6..0; by default bit 7 is set exactly when it was or the popcount is even;
under `FORCE_ODD` the result always has odd popcount. -/
def Obligations.ParSetsOnlyTheTopBit : Prop :=
  ∀ b : Byte,
    (∀ mode, par mode b &&& 0x7F = b &&& 0x7F) ∧
    ((par .setMsbIfEven b).getLsbD 7 = (b.getLsbD 7 || popcount b % 2 == 0)) ∧
    popcount (par .forceOdd b) % 2 = 1

/-- 41 R95: with the default parameters a text byte has odd popcount exactly for the raw bytes outside the
57 that the rule lists. -/
def Obligations.OddParityExceptFiftySeven : Prop :=
  ∀ c : Byte, popcount (par .setMsbIfEven (remap defaultParams c)) % 2 = 1 ↔
    c ∉ [(0x81 : Byte), 0x82, 0x84, 0x87, 0x88, 0x8B, 0x8D, 0x8E, 0x90, 0x93, 0x95, 0x96, 0x99, 0x9A,
      0x9C, 0x9F, 0xA0, 0xA3, 0xA5, 0xA6, 0xA9, 0xAA, 0xAC, 0xAF, 0xB1, 0xB2, 0xB4, 0xB7, 0xB8, 0xBB,
      0xBD, 0xBE, 0xC9, 0xCA, 0xCC, 0xCF, 0xD1, 0xD2, 0xD4, 0xD7, 0xD8, 0xDB, 0xDD, 0xDE, 0xE1, 0xE2,
      0xE7, 0xE8, 0xEB, 0xED, 0xEE, 0xF0, 0xF3, 0xF5, 0xF9, 0xFA, 0xFF]

/-- 42 R110, R111, R112: `PLACE` answers for exactly the pairs `i < n` with `n` in 1..3, by how many rows lie
below; any other pair is `InvalidRowSelection`, with either `highPosition`. -/
def Obligations.PlaceAnswersSixPairs : Prop :=
  ∀ (n i : Nat) (hp : Bool),
    (i < n ∧ n ≤ 3 → ∃ p1, [(0x38 : Byte), 0x64, 0x49][n - 1 - i]? = some p1 ∧
      place i n hp = .ok (if hp then 0x15 else 0x02, p1)) ∧
    (¬ (i < n ∧ n ≤ 3) → place i n hp = .error .invalidRowSelection)

/-! ## The host -/

/-- 44 R150: the session's own operations and the firing of its timer always complete, and leave the block,
the transmit history and the codes as they are. -/
def Obligations.SessionLeavesBlockAlone : Prop :=
  ∀ (s s' : State) (m : Move), chooseMove s = some (m, s') →
    (m = .fire ∨ ∃ k op rest, m = .act k ∧ s'.acts[k]? = some (.own op :: rest)) →
    ∃ t, step s = .next t ∧ SameBlock s t ∧ t.txh = s.txh ∧ t.errs = s.errs

/-- 30 R62 (a), 43 R120, R121: a host that presents `LOADROW r, text` to a block that is not busy has, after
one step per word, the first 35 characters in the row's cells and the text's length, capped at 63, in its
length register; no other cell and no other length changes, and nothing is sent. A text that fits is what
the row then reads as. -/
def Obligations.LoadRowLoadsItsRow : Prop :=
  ∀ (r : Fin 3) (text : List Byte) (s : State), s.busy = false →
    s.session.timer = none → s.acts = [loadRow (BitVec.ofNat 2 r.val) text] →
    ∃ t, Host.Core.run core (min text.length 35 + 1) s = .next t ∧
      (rowLen t r).toNat = min text.length 63 ∧
      (∀ k < 35, ∀ c, text[k]? = some c → memRead t.rowbuf (cellAddr r.val k) = some c) ∧
      (∀ a, (∀ k < min text.length 35, a ≠ cellAddr r.val k) →
        memRead t.rowbuf a = memRead s.rowbuf a) ∧
      (text.length ≤ 35 → rowText t r = .ok text) ∧
      (∀ q : Fin 3, q ≠ r → rowLen t q = rowLen s q ∧ rowText t q = rowText s q) ∧
      t.txh = s.txh ∧ t.busy = false ∧ t.err = s.err

/-- 44 R161: a host that checks a request itself makes the block's three checks in the block's order. A request
of more than three rows, of none, or with a row above 35 ends the call before its step 3 with the error's
code: the rest of the call is not executed, and the pending timer stays. Any other request goes on. That the
default host is this one is log 17, that its caller goes on with its later calls is log 34. -/
def Obligations.RejectedRequestSendsNothing : Prop :=
  ∀ (rows : List (List Byte)) (i : Nat) (rest : List HostOp) (s : State),
    s.params.hostChecksFirst = true → i < s.acts.length →
    (∀ e : CmdError,
      (e = .tooManyRows ∧ 3 < rows.length) ∨ (e = .invalidRowSelection ∧ rows.length = 0) ∨
        (e = .rowTooLong ∧ 1 ≤ rows.length ∧ rows.length ≤ 3 ∧ ∃ t ∈ rows, 35 < t.length) →
      ∃ t, t = sessionOp (.validate rows) i rest s ∧ t.acts[i]? = some (afterCall rest) ∧
        t.session = { s.session with results := s.session.results ++ [.rejected (errCode e)] }) ∧
    (1 ≤ rows.length → rows.length ≤ 3 → (∀ t ∈ rows, t.length ≤ 35) →
      sessionOp (.validate rows) i rest s = setAct i rest s)

/-- 44 R152: on a writable connection `ensureConnected` does nothing; otherwise an attempt begins, and when it
ends in success the handshake `PAGESEL HANDSHAKE_PAGE` is what the call sends next, before its own
operations. That a call which finds the connection `Connecting` starts an attempt of its own is log 30,
that the settle wait stands before the handshake is log 19, how a failed handshake is seen is log 27, that the
connection counts as writable before its handshake is out is log 37, that it becomes the session's is log 38:
the model's choices. -/
def Obligations.HandshakeFollowsOpening : Prop :=
  ∀ (host : String) (port i : Nat) (rest : List HostOp) (s : State),
    (s.session.conn = .connected →
      sessionOp (.ensureConnected host port) i rest s = setAct i rest s) ∧
    (s.session.conn ≠ .connected → i < s.acts.length →
      (sessionOp (.ensureConnected host port) i rest s).acts[i]? = some (.own .awaitConnect :: rest) ∧
      (sessionOp (.ensureConnected host port) i rest s).session.conn = .connecting) ∧
    (∀ ds, s.session.dials = true :: ds → i < s.acts.length →
      (sessionOp .awaitConnect i rest s).session.conn = .connected ∧
      (sessionOp .awaitConnect i rest s).session.handle = some s.session.opened ∧
      (sessionOp .awaitConnect i rest s).session.opened = s.session.opened + 1 ∧
      (sessionOp .awaitConnect i rest s).acts[i]? =
        some ([.own .settle, .port (.cmd (cmdWord 0b00 s.params.handshakePage 0)), .port .takePacket,
          .own (.handshakeDone s.session.opened)] ++ rest))

/-- 44 R152, R158: when the connection cannot be opened, or the open connection is lost during the handshake,
the call fails, its caller is told, and the rest of the call is not executed; a handshake with no loss goes
on to the call. That a connection opened meanwhile by another call stays (log 33), that the caller goes on with
its later calls (log 34), and how the loss is seen (log 27), are the model's choices. -/
def Obligations.FailedOpeningEndsTheCall : Prop :=
  ∀ (i : Nat) (rest : List HostOp) (s : State), i < s.acts.length →
    (∀ ds, s.session.dials = false :: ds →
      (sessionOp .awaitConnect i rest s).acts[i]? = some (afterCall rest) ∧
      (s.session.conn ≠ .connected →
        (sessionOp .awaitConnect i rest s).session.conn = .disconnected) ∧
      (s.session.conn = .connected →
        (sessionOp .awaitConnect i rest s).session.conn = .connected) ∧
      (sessionOp .awaitConnect i rest s).session.results = s.session.results ++ [.connectFailed]) ∧
    (∀ handle, (handle ∈ s.session.lost →
        (sessionOp (.handshakeDone handle) i rest s).acts[i]? = some (afterCall rest) ∧
        (sessionOp (.handshakeDone handle) i rest s).session.results =
          s.session.results ++ [.connectFailed]) ∧
      (handle ∉ s.session.lost → sessionOp (.handshakeDone handle) i rest s = setAct i rest s)) ∧
    (∀ handle, (s.session.handle = some handle → s.session.conn = .connected →
        (sessionOp (.transportError handle) i rest s).session =
          { s.session with conn := .disconnected, lost := s.session.lost ++ [handle] }) ∧
      (s.session.handle ≠ some handle → handle < s.session.opened → handle ∉ s.session.lost →
        (sessionOp (.transportError handle) i rest s).session =
          { s.session with lost := s.session.lost ++ [handle] }) ∧
      ((s.session.handle = some handle ∧ s.session.conn ≠ .connected) ∨
          (s.session.handle ≠ some handle ∧ (s.session.opened ≤ handle ∨ handle ∈ s.session.lost)) →
        (sessionOp (.transportError handle) i rest s).session = s.session))

/-- 44 R156: at most one timer is pending; a new one replaces it, step 3 of a call cancels it, and when it is
due its firing leaves none pending and one more activity, which sends one `CLEAR`. A timer fires only when
it is due, and no step makes one pending but `startTimer`: so a cancelled timer never fires. (The fired
activity sends without `ensureConnected`: log 20; the settle wait before the `CLEAR`: log 19.) -/
def Obligations.OneAutoClearPerTimer : Prop :=
  ∀ (i ms : Nat) (rest : List HostOp) (s : State),
    (sessionOp (.startTimer ms) i rest s).session.timer = some (s.session.now + ms) ∧
    (sessionOp .cancelTimer i rest s).session.timer = none ∧
    (timerDue (sessionOp .cancelTimer i rest s) = false) ∧
    (∀ t, runMove .fire s = .next t → t.session.timer = none ∧
      t.acts = s.acts ++ [[.own .settle, .port (.cmd (cmdWord 0b11 0 0)), .port .takePacket]]) ∧
    (∀ s', chooseMove s = some (.fire, s') → timerDue s = true) ∧
    (∀ t, step s = .next t → t.session.timer ≠ s.session.timer → t.session.timer = none ∨
      ∃ k d s' after, chooseMove s = some (.act k, s') ∧
        s.acts[k]? = some (.own (.startTimer d) :: after) ∧ t.session.timer = some (s.session.now + d))

/-- 44 R155, 70 R194: the host keeps its settle delay, whichever activities send the packets. Its clock never
goes back; the first byte of a packet is taken no earlier than `settleUntil`, and exactly a packet's last
byte sets `settleUntil`, to `SETTLE_MS` after it. That the host has a clock of this form is log 19. -/
def Obligations.SettleDelayIsKept : Prop :=
  ∀ s t : State, step s = .next t →
    s.session.now ≤ t.session.now ∧
    (t.txh ≠ s.txh → s.idx = 0 → s.session.settleUntil ≤ t.session.now) ∧
    (∀ b, t.txh = s.txh ++ [⟨b, true⟩] →
      t.session.settleUntil = t.session.now + s.params.settleMs) ∧
    ((∀ b, t.txh ≠ s.txh ++ [⟨b, true⟩]) → t.session.settleUntil = s.session.settleUntil)

/-- 44 R153, R161: `API.SetText` on a writable connection, with one to three rows of at most 35 characters and
no other activity, sends in order `98`, the Set-Text packet of its rows, and, unless the duration is 0,
`10`; then the one pending timer is due `durationMs` later, 2500 if omitted, and the caller goes on. That an
untimed call has cancelled a pending timer too is the model's choice (log 32). -/
def Obligations.ApiSetTextSendsItsPackets : Prop :=
  ∀ (host : String) (port : Nat) (rows : List (List Byte)) (duration : Option Nat)
    (rest : List HostOp) (s : State),
    s.busy = false → s.session.conn = .connected → timerDue s = false →
    s.acts = [apiSetText host port rows duration ++ rest] →
    1 ≤ rows.length → rows.length ≤ 3 → (∀ row ∈ rows, row.length ≤ 35) →
    ∃ (k : Nat) (t : State) (blocks : List (List Byte)), Host.Core.run core k s = .next t ∧
      t.acts = [rest] ∧ t.busy = false ∧ t.session.results = s.session.results ++ [.returned] ∧
      blocks.length = rows.length ∧
      (∀ i row, rows[i]? = some row →
        ∃ b, blocks[i]? = some b ∧ rowBlock s.params i rows.length row = .ok b) ∧
      t.txh = s.txh ++ [⟨0x98, true⟩] ++
        marked ([0x8F] ++ ([0xC7, 0x8C, 0x9B][rows.length - 1]?).toList ++ blocks.flatten) ++
        (if duration = some 0 then [] else [⟨0x10, true⟩]) ∧
      t.session.timer =
        if duration = some 0 then none else some (t.session.now + duration.getD 2500)

/-- 44 R154, R152: `API.Reveal` and `API.Clear`, with no other activity and no timer due meanwhile, send their
one byte on a writable connection, and before it the handshake on a new one; a pending timer stays. -/
def Obligations.ApiRevealAndClearSendOneByte : Prop :=
  ∀ (host : String) (port : Nat) (call rest : List HostOp) (b : Byte) (s : State),
    (call = apiReveal host port ∧ b = 0x10) ∨ (call = apiClear host port ∧ b = 0x98) →
    s.busy = false → s.acts = [call ++ rest] →
    (∀ due, s.session.timer = some due →
      max s.session.now s.session.settleUntil + s.params.settleMs < due) →
    (s.session.conn = .connected →
      ∃ t, Host.Core.run core 5 s = .next t ∧ t.acts = [rest] ∧ t.txh = s.txh ++ [⟨b, true⟩] ∧
        t.session.timer = s.session.timer ∧ t.session.conn = .connected ∧
        t.session.results = s.session.results ++ [.returned]) ∧
    (s.session.conn ≠ .connected → ∀ ds, s.session.dials = true :: ds →
      ∃ t, Host.Core.run core 14 s = .next t ∧ t.acts = [rest] ∧
        t.txh = s.txh ++ marked (pageSelPacket (pageOperand s.params s.params.handshakePage)) ++
          [⟨b, true⟩] ∧
        t.session.timer = s.session.timer ∧ t.session.conn = .connected ∧
        t.session.results = s.session.results ++ [.returned])

/-- 44 R157, R158: a caller that awaits its calls in sequence: each public call has one `ret`, its last
operation; after a call that returned, and after one that failed anywhere before it, the caller goes on
with what follows. That it goes on after a failure is the model's choice (log 34). -/
def Obligations.AwaitedCallsFollow : Prop :=
  (∀ (i : Nat) (r : CallResult) (call next : List HostOp) (s : State), i < s.acts.length →
    (sessionOp .ret i next s).acts[i]? = some next ∧
    (sessionOp .ret i next s).session.results = s.session.results ++ [.returned] ∧
    ((∀ op ∈ call, op ≠ .own .ret) →
      (endCall i r (afterCall (call ++ .own .ret :: next)) s).acts[i]? = some next ∧
      afterCall call = [])) ∧
  (∀ (host : String) (port : Nat) (rows : List (List Byte)) (duration : Option Nat),
    ∀ call ∈ [apiSetText host port rows duration, apiReveal host port, apiClear host port],
      ∃ ops, call = ops ++ [.own .ret] ∧ ∀ op ∈ ops, op ≠ .own .ret)

/-- 70 R200: a run is over exactly when the host has no further transfer to present and `BUSY = 0`: no `WR`, no
`CMD`, and no connection whose handshake is still to come (log 35); so one that stops with `BUSY = 1` is not
over. While it is over and no timer is due, a step leaves its result and `BUSY` as they are, whatever
operations that present nothing are left, and it stays over unless the connection is lost; with no operation
left and no timer pending the whole state stays (log 3). -/
def Obligations.RunOverRests : Prop :=
  ∀ s : State,
    (runOver s = true ↔ s.busy = false ∧
      ∀ ops ∈ s.acts, ∀ op ∈ ops, (∀ w, op ≠ .port (.wr w)) ∧ (∀ w, op ≠ .port (.cmd w)) ∧
        op ≠ .own .awaitConnect ∧
        (s.session.conn ≠ .connected → ∀ host port, op ≠ .own (.ensureConnected host port))) ∧
    (s.busy = true → runOver s = false) ∧
    (runOver s = true → timerDue s = false → ∃ t, step s = .next t ∧
      runResult t = runResult s ∧ t.busy = false ∧
      (t.session.conn = s.session.conn → runOver t = true)) ∧
    (hostDone s = true → runOver s = true ∧ ∀ k, Host.Core.run core k s = .next s)

/-- 43 R123, 00_scope R4: were `PAGE_WIDTH` below 12, `PAGESEL` would build the packet of the low `PAGE_WIDTH`
bits of its page field, and latch the whole field. That these are the bits is the model's choice (log 8). -/
def Obligations.PageselTakesPageWidthBits : Prop :=
  ∀ (p q : BitVec 12) (n : BitVec 3) (s : State), s.busy = false →
    s.params.pageWidth < 12 → q.toNat = p.toNat % 2 ^ s.params.pageWidth →
    exec (.pagesel p n) s = .next
      { s with
        opr := ⟨0b00, p, n⟩
        pkt := [0x0E, 0x15, ham (BitVec.ofNat 4 (q.toNat / 256)),
          ham (BitVec.ofNat 4 ((q &&& 0xF0).toNat / 16)), ham (BitVec.ofNat 4 (q &&& 0x0F).toNat)]
        idx := 0, busy := true, err := 0b00, errs := s.errs ++ [0b00] }
end

