-- ==== Sys2Proof/Laws/Memory.lean ====
section
/-! SUPPORT. The laws of the row buffer: what a read after a write gives, and that every operation keeps the
canonical form. -/

namespace Sys2Proof.Laws

open Sys2Proof.Machine

theorem memRead_memWrite_self (m : Memory) (x : Nat) (v : Byte) :
    memRead (memWrite m x v) x = some v := by
  induction m with
  | nil => simp [memWrite, memRead]
  | cons c m ih =>
    unfold memWrite
    split
    · simp [memRead]
    · split
      · simp [memRead]
      · simp [memRead, *]

theorem memRead_memWrite_other (m : Memory) {x y : Nat} (v : Byte) (h : y ≠ x) :
    memRead (memWrite m x v) y = memRead m y := by
  induction m with
  | nil => simp [memWrite, memRead, h]
  | cons c m ih =>
    unfold memWrite
    split
    · simp [memRead, h]
    · split
      · next hx => subst hx; simp [memRead, h]
      · simp [memRead, ih]

/-- The addresses after a write are the old ones and the one written. -/
theorem mem_memWrite {m : Memory} {x : Nat} {v : Byte} {c : Host.Cell}
    (h : c ∈ memWrite m x v) : c.1 = x ∨ c ∈ m := by
  induction m with
  | nil => simp_all [memWrite]
  | cons d m ih =>
    unfold memWrite at h
    split at h
    · rcases List.mem_cons.1 h with rfl | h
      · exact .inl rfl
      · exact .inr h
    · split at h
      · rcases List.mem_cons.1 h with rfl | h
        · exact .inl rfl
        · exact .inr (List.mem_cons_of_mem _ h)
      · rcases List.mem_cons.1 h with rfl | h
        · exact .inr (List.mem_cons_self ..)
        · exact (ih h).imp id (List.mem_cons_of_mem _)

theorem memWrite_rising {m : Memory} (x : Nat) (v : Byte)
    (h : (m.map Prod.fst).Pairwise (· < ·)) :
    ((memWrite m x v).map Prod.fst).Pairwise (· < ·) := by
  induction m with
  | nil => simp [memWrite]
  | cons c m ih =>
    obtain ⟨hc, hm⟩ := List.pairwise_cons.1 h
    unfold memWrite
    split
    · next hlt =>
      refine List.pairwise_cons.2 ⟨fun a ha => ?_, h⟩
      rcases List.mem_cons.1 ha with rfl | ha
      · exact hlt
      · exact Nat.lt_trans hlt (hc a ha)
    · split
      · next heq => subst heq; exact h
      · refine List.pairwise_cons.2 ⟨fun a ha => ?_, ih hm⟩
        obtain ⟨d, hd, rfl⟩ := List.mem_map.1 ha
        rcases mem_memWrite hd with h1 | h1
        · show c.1 < d.1
          omega
        · exact hc _ (List.mem_map_of_mem h1)

/-- A write to a cell keeps the canonical form. -/
theorem memWrite_wf {m : Memory} {x : Nat} (v : Byte) (hm : m.wf = true) (hx : isCellAddr x = true) :
    Memory.wf (memWrite m x v) = true := by
  simp only [Memory.wf, Bool.and_eq_true, decide_eq_true_eq, List.all_eq_true] at hm ⊢
  refine ⟨memWrite_rising x v hm.1, fun c hc => ?_⟩
  rcases mem_memWrite hc with h | h
  · rw [h]; exact hx
  · exact hm.2 c h

theorem reset_memory_wf : Memory.wf State.reset.rowbuf = true := rfl

theorem isCellAddr_cellAddr {r : BitVec 2} {k : BitVec 6} (h : isCell r k = true) :
    isCellAddr (cellAddr r.toNat k.toNat) = true := by
  simp only [isCell, isCellAddr, cellAddr, Bool.and_eq_true, decide_eq_true_eq] at h ⊢
  exact ⟨decide_eq_true (by omega), decide_eq_true (by omega)⟩

/-- Two cells of the port's address space have one address only if they are one cell. -/
theorem cellAddr_inj {r r' k k' : Nat} (hk : k < 64) (hk' : k' < 64)
    (h : cellAddr r k = cellAddr r' k') : r = r' ∧ k = k' := by
  unfold cellAddr at h; omega

/-- The row buffer stays canonical under `WRCH`, whatever it addresses (43 R120). -/
theorem writeCell_wf (r : BitVec 2) (k : BitVec 6) (b : Byte) {s : State} (h : s.rowbuf.wf = true) :
    (writeCell r k b s).rowbuf.wf = true := by
  unfold writeCell
  split
  · exact memWrite_wf b h (isCellAddr_cellAddr ‹_›)
  · exact h

/-- The first cell of a read that holds no value is the one the read faults on. -/
theorem readCells_fault {m : Memory} {r : Nat} {k n j : Nat} (hj : j < n)
    (hbefore : ∀ i < j, (memRead m (cellAddr r (k + i))).isSome = true)
    (hnone : memRead m (cellAddr r (k + j)) = none) :
    readCells m r k n = .error (.unwrittenCell r (k + j)) := by
  induction n generalizing k j with
  | zero => omega
  | succ n ih =>
    unfold readCells
    cases j with
    | zero => simp_all
    | succ j =>
      obtain ⟨b, hb⟩ := Option.isSome_iff_exists.1 (hbefore 0 (by omega))
      rw [Nat.add_zero] at hb
      have h1 : readCells m r (k + 1) n = .error (.unwrittenCell r (k + 1 + j)) := by
        refine ih (by omega) (fun i hi => ?_) ?_
        · have := hbefore (i + 1) (by omega)
          rwa [← Nat.add_assoc, Nat.add_right_comm] at this
        · rwa [← Nat.add_assoc, Nat.add_right_comm] at hnone
      simp only [hb, h1]
      rw [Nat.add_right_comm k 1 j, Nat.add_assoc]

/-- A read of cells that all hold a value answers those values, in order. -/
theorem readCells_ok {m : Memory} {r : Nat} {k n : Nat} (t : List Byte) (ht : t.length = n)
    (hcells : ∀ i (h : i < t.length), memRead m (cellAddr r (k + i)) = some t[i]) :
    readCells m r k n = .ok t := by
  induction n generalizing k t with
  | zero => rw [List.length_eq_zero_iff.1 ht]; rfl
  | succ n ih =>
    match t, ht with
    | b :: t, ht =>
      unfold readCells
      have h0 := hcells 0 (by simp)
      simp only [Nat.add_zero, List.getElem_cons_zero] at h0
      have h1 : readCells m r (k + 1) n = .ok t := by
        refine ih t (by simpa using ht) (fun i h => ?_)
        have := hcells (i + 1) (by simpa using h)
        rwa [← Nat.add_assoc, Nat.add_right_comm] at this
      simp [h0, h1]

/-- A read answers as many bytes as it has cells, each the value of its cell. -/
theorem readCells_spec {m : Memory} {r : Nat} {k n : Nat} {t : List Byte}
    (h : readCells m r k n = .ok t) :
    t.length = n ∧ ∀ i (hi : i < t.length), memRead m (cellAddr r (k + i)) = some t[i] := by
  induction n generalizing k t with
  | zero =>
    unfold readCells at h
    cases h
    simp
  | succ n ih =>
    unfold readCells at h
    split at h
    · cases h
    · next b hb =>
      split at h
      · cases h
      · next bs hbs =>
        cases h
        obtain ⟨h1, h2⟩ := ih hbs
        refine ⟨by simp [h1], fun i hi => ?_⟩
        cases i with
        | zero => simpa using hb
        | succ i =>
          have := h2 i (by simpa using hi)
          simpa [Nat.add_assoc, Nat.add_comm 1 i] using this

end Sys2Proof.Laws
end

