-- ==== Sys2Proof/Laws/Codec.lean ====
section
/-! SUPPORT. What the combinational functions give: codewords, text bytes, the 42 bytes of a row block, and
the packet of a `SETTEXT`. -/

namespace Sys2Proof.Laws

open Sys2Proof.Machine

theorem isCodeword_ham : ∀ n : BitVec 4, isCodeword (ham n) = true := by decide

set_option maxRecDepth 4000 in
theorem isTextByte_setMsb : ∀ b : Byte, isTextByte (par .setMsbIfEven b) = true := by decide

set_option maxRecDepth 4000 in
theorem isTextByte_forceOdd : ∀ b : Byte, isTextByte (par .forceOdd b) = true := by decide

theorem isTextByte_par (mode : ParityMode) (b : Byte) : isTextByte (par mode b) = true := by
  cases mode
  · exact isTextByte_setMsb b
  · exact isTextByte_forceOdd b

@[simp] theorem encText_length (p : Params) (t : List Byte) : (encText p t).length = t.length := by
  simp [encText]

theorem encText_all (p : Params) (t : List Byte) : (encText p t).all isTextByte = true := by
  simp [encText, isTextByte_par]

theorem pad_length (p : Params) {t : List Byte} (h : t.length ≤ 35) : (pad p t).length = 35 := by
  simp only [pad, leftPad, rowWidth, List.length_append, List.length_replicate]
  omega

theorem frameByte_cr (p : Params) : frameByte p byteCR = 0x0D := by
  unfold frameByte
  split
  · rfl
  · cases p.parityMode <;> decide

theorem frameByte_vt (p : Params) : frameByte p byteVT = 0x0B := by
  unfold frameByte
  split
  · rfl
  · cases p.parityMode <;> decide

theorem frameByte_lf (p : Params) :
    frameByte p byteLF = if p.frameCtrl = .literal then 0x0A else 0x8A := by
  unfold frameByte
  split
  · next h => simp [h, byteLF]
  · next h =>
    rw [if_neg (by simp [h])]
    cases p.parityMode <;> decide

/-- The slot of row `i` of a request of `n` rows, by how many rows lie below it (42 R111). -/
def slotOf (n i : Nat) : Byte :=
  match n - 1 - i with
  | 0 => slotBottom
  | 1 => slotMiddle
  | _ => slotTop

theorem slot_eq {n i : Nat} (hi : i < n) (hn : n ≤ 3) : slot n i = some (slotOf n i) := by
  interval_cases n <;> interval_cases i <;> rfl

theorem slot_none {n i : Nat} (h : ¬ (i < n ∧ n ≤ 3)) : slot n i = none := by
  unfold slot
  split <;> first | rfl | omega

/-- The row block that `ROWBLOCK(i, n, t)` is, field by field (30 R53). -/
def builtBlock (p : Params) (i n : Nat) (t : List Byte) : RowBlock where
  p0 := 0x02
  p1 := slotOf n i
  cr := 0x0D
  vt1 := 0x0B
  vt2 := 0x0B
  text := encText p (pad p t)
  lf1 := frameByte p byteLF
  lf2 := frameByte p byteLF

/-- What `ROWBLOCK` gives for a row of a request of one to three rows. -/
theorem rowBlock_eq (p : Params) {i n : Nat} (t : List Byte) (hi : i < n) (hn : n ≤ 3) :
    rowBlock p i n t = .ok (rowBlockBytes (builtBlock p i n t)) := by
  simp [rowBlock, place, slot_eq hi hn, frameByte_cr, frameByte_vt, builtBlock, rowBlockBytes,
    placeHiNormal, ham, hamTable]

theorem builtBlock_wf (p : Params) (i n : Nat) {t : List Byte} (h : t.length ≤ 35) :
    (builtBlock p i n t).wf (slotOf n i) = true := by
  have hlf : frameByte p byteLF = 0x0A ∨ frameByte p byteLF = 0x8A := by
    rw [frameByte_lf]; split <;> simp
  rcases hlf with hlf | hlf <;>
    simp [RowBlock.wf, builtBlock, encText_all, pad_length p h, hlf]

theorem rowBlockBytes_length {b : RowBlock} (h : b.text.length = 35) :
    (rowBlockBytes b).length = 42 := by
  simp [rowBlockBytes, h]

theorem text_length_of_wf {b : RowBlock} {c : Byte} (h : b.wf c = true) : b.text.length = 35 := by
  simp only [RowBlock.wf, Bool.and_eq_true, beq_iff_eq] at h
  omega

/-- A row block is read back off the front of the bytes it stands on. -/
theorem rowBlockOf_bytes {b : RowBlock} (rest : List Byte) (h : b.text.length = 35) :
    rowBlockOf (rowBlockBytes b ++ rest) = some (b, rest) := by
  simp [rowBlockOf, rowBlockBytes, h]

/-- What is read as a row block stands there as its bytes. -/
theorem bytes_of_rowBlockOf {bytes rest : List Byte} {b : RowBlock}
    (h : rowBlockOf bytes = some (b, rest)) : bytes = rowBlockBytes b ++ rest := by
  unfold rowBlockOf at h
  split at h
  · next p0 p1 cr vt1 vt2 tl =>
    split at h
    · next lf1 lf2 tail hd =>
      obtain ⟨rfl, rfl⟩ := Prod.mk.inj (Option.some.inj h)
      have := List.take_append_drop 35 tl
      rw [hd] at this
      simp [rowBlockBytes, this]
    · cases h
  · cases h

/-- Row blocks are read back from their bytes. -/
theorem rowBlocksOf_bytes {bs : List RowBlock} (h : ∀ b ∈ bs, b.text.length = 35) :
    rowBlocksOf bs.length (bs.flatMap rowBlockBytes) = .ok bs := by
  induction bs with
  | nil => rfl
  | cons b bs ih =>
    have h1 := ih fun c hc => h c (List.mem_cons_of_mem _ hc)
    simp only [List.length_cons, List.flatMap_cons, rowBlocksOf,
      rowBlockOf_bytes _ (h b (List.mem_cons_self ..)), h1]

/-- The row-count code and the row blocks of a packet, read back (30 R52). -/
theorem decodeTx_setText {c : Byte} {bs : List RowBlock} (hc : rowsOfCode c = some bs.length)
    (h : ∀ b ∈ bs, b.text.length = 35) :
    decodeTx (0x8F :: c :: bs.flatMap rowBlockBytes) =
      match (generalizing := false) bs with
      | [b0] => .ok (.wireSetText1 b0)
      | [b0, b1] => .ok (.wireSetText2 b0 b1)
      | [b0, b1, b2] => .ok (.wireSetText3 b0 b1 b2)
      | _ => .error .truncated := by
  have h14 : (0x8F : Byte) ≠ 0x0E := by decide
  simp only [decodeTx, decodeSetText, hc, rowBlocksOf_bytes h, if_neg h14, if_true]
  match bs with
  | [] => rfl
  | [_] => rfl
  | [_, _] => rfl
  | [_, _, _] => rfl
  | _ :: _ :: _ :: _ :: _ => rfl

theorem bytes_of_rowBlocksOf {n : Nat} {bytes : List Byte} {bs : List RowBlock}
    (h : rowBlocksOf n bytes = .ok bs) : bs.length = n ∧ bytes = bs.flatMap rowBlockBytes := by
  induction n generalizing bytes bs with
  | zero =>
    unfold rowBlocksOf at h
    split at h <;> simp_all
  | succ n ih =>
    simp only [rowBlocksOf] at h
    split at h
    · cases h
    · next b rest hb =>
      split at h
      · cases h
      · next cs hcs =>
        cases h
        obtain ⟨h1, h2⟩ := ih hcs
        exact ⟨by simp [h1], by rw [bytes_of_rowBlockOf hb, h2]; simp⟩

/-- The texts of the rows `rs`, when every cell of them is written: what `rowBlocks` builds from them. -/
theorem rowBlocks_ok {s : State} {n : Nat} (hn : n ≤ 3) {rs : List (Fin 3)} {ts : List (List Byte)}
    (hrs : ∀ r ∈ rs, r.val < n) (hts : List.Forall₂ (fun r t => rowText s r = .ok t) rs ts) :
    rowBlocks s n rs =
      .ok ((rs.zip ts).flatMap fun rt => rowBlockBytes (builtBlock s.params rt.1.val n rt.2)) := by
  induction hts with
  | nil => rfl
  | cons h _ ih =>
    have h1 := ih (fun r hr => hrs r (List.mem_cons_of_mem _ hr))
    simp [rowBlocks, h, rowBlock_eq _ _ (hrs _ (List.mem_cons_self ..)) hn, h1]

end Sys2Proof.Laws
end

