-- ==== Sys2Proof/Laws/State.lean ====
section
/-! SUPPORT. One lemma per field per update of the state, so that no later proof unfolds a record update. -/

namespace Sys2Proof.Laws

open Sys2Proof.Machine

@[simp] theorem writeCell_rowlen0 (r : BitVec 2) (k : BitVec 6) (b : Byte) (s : State) :
    (writeCell r k b s).rowlen0 = s.rowlen0 := by
  unfold writeCell; split <;> rfl
@[simp] theorem writeCell_rowlen1 (r : BitVec 2) (k : BitVec 6) (b : Byte) (s : State) :
    (writeCell r k b s).rowlen1 = s.rowlen1 := by
  unfold writeCell; split <;> rfl
@[simp] theorem writeCell_rowlen2 (r : BitVec 2) (k : BitVec 6) (b : Byte) (s : State) :
    (writeCell r k b s).rowlen2 = s.rowlen2 := by
  unfold writeCell; split <;> rfl
@[simp] theorem writeCell_opr (r : BitVec 2) (k : BitVec 6) (b : Byte) (s : State) :
    (writeCell r k b s).opr = s.opr := by
  unfold writeCell; split <;> rfl
@[simp] theorem writeCell_pkt (r : BitVec 2) (k : BitVec 6) (b : Byte) (s : State) :
    (writeCell r k b s).pkt = s.pkt := by
  unfold writeCell; split <;> rfl
@[simp] theorem writeCell_idx (r : BitVec 2) (k : BitVec 6) (b : Byte) (s : State) :
    (writeCell r k b s).idx = s.idx := by
  unfold writeCell; split <;> rfl
@[simp] theorem writeCell_busy (r : BitVec 2) (k : BitVec 6) (b : Byte) (s : State) :
    (writeCell r k b s).busy = s.busy := by
  unfold writeCell; split <;> rfl
@[simp] theorem writeCell_err (r : BitVec 2) (k : BitVec 6) (b : Byte) (s : State) :
    (writeCell r k b s).err = s.err := by
  unfold writeCell; split <;> rfl
@[simp] theorem writeCell_txh (r : BitVec 2) (k : BitVec 6) (b : Byte) (s : State) :
    (writeCell r k b s).txh = s.txh := by
  unfold writeCell; split <;> rfl
@[simp] theorem writeCell_errs (r : BitVec 2) (k : BitVec 6) (b : Byte) (s : State) :
    (writeCell r k b s).errs = s.errs := by
  unfold writeCell; split <;> rfl
@[simp] theorem writeCell_params (r : BitVec 2) (k : BitVec 6) (b : Byte) (s : State) :
    (writeCell r k b s).params = s.params := by
  unfold writeCell; split <;> rfl
@[simp] theorem writeCell_acts (r : BitVec 2) (k : BitVec 6) (b : Byte) (s : State) :
    (writeCell r k b s).acts = s.acts := by
  unfold writeCell; split <;> rfl
@[simp] theorem writeCell_sched (r : BitVec 2) (k : BitVec 6) (b : Byte) (s : State) :
    (writeCell r k b s).sched = s.sched := by
  unfold writeCell; split <;> rfl
@[simp] theorem writeCell_session (r : BitVec 2) (k : BitVec 6) (b : Byte) (s : State) :
    (writeCell r k b s).session = s.session := by
  unfold writeCell; split <;> rfl

@[simp] theorem writeLen_rowbuf (r : BitVec 2) (n : BitVec 6) (s : State) :
    (writeLen r n s).rowbuf = s.rowbuf := by
  unfold writeLen; split <;> rfl
@[simp] theorem writeLen_opr (r : BitVec 2) (n : BitVec 6) (s : State) :
    (writeLen r n s).opr = s.opr := by
  unfold writeLen; split <;> rfl
@[simp] theorem writeLen_pkt (r : BitVec 2) (n : BitVec 6) (s : State) :
    (writeLen r n s).pkt = s.pkt := by
  unfold writeLen; split <;> rfl
@[simp] theorem writeLen_idx (r : BitVec 2) (n : BitVec 6) (s : State) :
    (writeLen r n s).idx = s.idx := by
  unfold writeLen; split <;> rfl
@[simp] theorem writeLen_busy (r : BitVec 2) (n : BitVec 6) (s : State) :
    (writeLen r n s).busy = s.busy := by
  unfold writeLen; split <;> rfl
@[simp] theorem writeLen_err (r : BitVec 2) (n : BitVec 6) (s : State) :
    (writeLen r n s).err = s.err := by
  unfold writeLen; split <;> rfl
@[simp] theorem writeLen_txh (r : BitVec 2) (n : BitVec 6) (s : State) :
    (writeLen r n s).txh = s.txh := by
  unfold writeLen; split <;> rfl
@[simp] theorem writeLen_errs (r : BitVec 2) (n : BitVec 6) (s : State) :
    (writeLen r n s).errs = s.errs := by
  unfold writeLen; split <;> rfl
@[simp] theorem writeLen_params (r : BitVec 2) (n : BitVec 6) (s : State) :
    (writeLen r n s).params = s.params := by
  unfold writeLen; split <;> rfl
@[simp] theorem writeLen_acts (r : BitVec 2) (n : BitVec 6) (s : State) :
    (writeLen r n s).acts = s.acts := by
  unfold writeLen; split <;> rfl
@[simp] theorem writeLen_sched (r : BitVec 2) (n : BitVec 6) (s : State) :
    (writeLen r n s).sched = s.sched := by
  unfold writeLen; split <;> rfl
@[simp] theorem writeLen_session (r : BitVec 2) (n : BitVec 6) (s : State) :
    (writeLen r n s).session = s.session := by
  unfold writeLen; split <;> rfl

@[simp] theorem raise_rowbuf (e : CmdError) (s : State) :
    (raise e s).rowbuf = s.rowbuf := rfl
@[simp] theorem raise_rowlen0 (e : CmdError) (s : State) :
    (raise e s).rowlen0 = s.rowlen0 := rfl
@[simp] theorem raise_rowlen1 (e : CmdError) (s : State) :
    (raise e s).rowlen1 = s.rowlen1 := rfl
@[simp] theorem raise_rowlen2 (e : CmdError) (s : State) :
    (raise e s).rowlen2 = s.rowlen2 := rfl
@[simp] theorem raise_opr (e : CmdError) (s : State) :
    (raise e s).opr = s.opr := rfl
@[simp] theorem raise_pkt (e : CmdError) (s : State) :
    (raise e s).pkt = [] := rfl
@[simp] theorem raise_idx (e : CmdError) (s : State) :
    (raise e s).idx = 0 := rfl
@[simp] theorem raise_busy (e : CmdError) (s : State) :
    (raise e s).busy = false := rfl
@[simp] theorem raise_err (e : CmdError) (s : State) :
    (raise e s).err = errCode e := rfl
@[simp] theorem raise_txh (e : CmdError) (s : State) :
    (raise e s).txh = s.txh := rfl
@[simp] theorem raise_errs (e : CmdError) (s : State) :
    (raise e s).errs = s.errs ++ [errCode e] := rfl
@[simp] theorem raise_params (e : CmdError) (s : State) :
    (raise e s).params = s.params := rfl
@[simp] theorem raise_acts (e : CmdError) (s : State) :
    (raise e s).acts = s.acts := rfl
@[simp] theorem raise_sched (e : CmdError) (s : State) :
    (raise e s).sched = s.sched := rfl
@[simp] theorem raise_session (e : CmdError) (s : State) :
    (raise e s).session = s.session := rfl

@[simp] theorem launch_rowbuf (p : List Byte) (s : State) :
    (launch p s).rowbuf = s.rowbuf := rfl
@[simp] theorem launch_rowlen0 (p : List Byte) (s : State) :
    (launch p s).rowlen0 = s.rowlen0 := rfl
@[simp] theorem launch_rowlen1 (p : List Byte) (s : State) :
    (launch p s).rowlen1 = s.rowlen1 := rfl
@[simp] theorem launch_rowlen2 (p : List Byte) (s : State) :
    (launch p s).rowlen2 = s.rowlen2 := rfl
@[simp] theorem launch_opr (p : List Byte) (s : State) :
    (launch p s).opr = s.opr := rfl
@[simp] theorem launch_pkt (p : List Byte) (s : State) :
    (launch p s).pkt = p := rfl
@[simp] theorem launch_idx (p : List Byte) (s : State) :
    (launch p s).idx = 0 := rfl
@[simp] theorem launch_busy (p : List Byte) (s : State) :
    (launch p s).busy = true := rfl
@[simp] theorem launch_err (p : List Byte) (s : State) :
    (launch p s).err = errOk := rfl
@[simp] theorem launch_txh (p : List Byte) (s : State) :
    (launch p s).txh = s.txh := rfl
@[simp] theorem launch_errs (p : List Byte) (s : State) :
    (launch p s).errs = s.errs ++ [errOk] := rfl
@[simp] theorem launch_params (p : List Byte) (s : State) :
    (launch p s).params = s.params := rfl
@[simp] theorem launch_acts (p : List Byte) (s : State) :
    (launch p s).acts = s.acts := rfl
@[simp] theorem launch_sched (p : List Byte) (s : State) :
    (launch p s).sched = s.sched := rfl
@[simp] theorem launch_session (p : List Byte) (s : State) :
    (launch p s).session = s.session := rfl

@[simp] theorem latch_rowbuf (o : Opr) (s : State) :
    (latch o s).rowbuf = s.rowbuf := rfl
@[simp] theorem latch_rowlen0 (o : Opr) (s : State) :
    (latch o s).rowlen0 = s.rowlen0 := rfl
@[simp] theorem latch_rowlen1 (o : Opr) (s : State) :
    (latch o s).rowlen1 = s.rowlen1 := rfl
@[simp] theorem latch_rowlen2 (o : Opr) (s : State) :
    (latch o s).rowlen2 = s.rowlen2 := rfl
@[simp] theorem latch_opr (o : Opr) (s : State) :
    (latch o s).opr = o := rfl
@[simp] theorem latch_pkt (o : Opr) (s : State) :
    (latch o s).pkt = s.pkt := rfl
@[simp] theorem latch_idx (o : Opr) (s : State) :
    (latch o s).idx = s.idx := rfl
@[simp] theorem latch_busy (o : Opr) (s : State) :
    (latch o s).busy = s.busy := rfl
@[simp] theorem latch_err (o : Opr) (s : State) :
    (latch o s).err = s.err := rfl
@[simp] theorem latch_txh (o : Opr) (s : State) :
    (latch o s).txh = s.txh := rfl
@[simp] theorem latch_errs (o : Opr) (s : State) :
    (latch o s).errs = s.errs := rfl
@[simp] theorem latch_params (o : Opr) (s : State) :
    (latch o s).params = s.params := rfl
@[simp] theorem latch_acts (o : Opr) (s : State) :
    (latch o s).acts = s.acts := rfl
@[simp] theorem latch_sched (o : Opr) (s : State) :
    (latch o s).sched = s.sched := rfl
@[simp] theorem latch_session (o : Opr) (s : State) :
    (latch o s).session = s.session := rfl

@[simp] theorem handOut_rowbuf (b : Byte) (s : State) :
    (handOut b s).rowbuf = s.rowbuf := by
  unfold handOut; split <;> rfl
@[simp] theorem handOut_rowlen0 (b : Byte) (s : State) :
    (handOut b s).rowlen0 = s.rowlen0 := by
  unfold handOut; split <;> rfl
@[simp] theorem handOut_rowlen1 (b : Byte) (s : State) :
    (handOut b s).rowlen1 = s.rowlen1 := by
  unfold handOut; split <;> rfl
@[simp] theorem handOut_rowlen2 (b : Byte) (s : State) :
    (handOut b s).rowlen2 = s.rowlen2 := by
  unfold handOut; split <;> rfl
@[simp] theorem handOut_opr (b : Byte) (s : State) :
    (handOut b s).opr = s.opr := by
  unfold handOut; split <;> rfl
@[simp] theorem handOut_pkt (b : Byte) (s : State) :
    (handOut b s).pkt = s.pkt := by
  unfold handOut; split <;> rfl
@[simp] theorem handOut_err (b : Byte) (s : State) :
    (handOut b s).err = s.err := by
  unfold handOut; split <;> rfl
@[simp] theorem handOut_errs (b : Byte) (s : State) :
    (handOut b s).errs = s.errs := by
  unfold handOut; split <;> rfl
@[simp] theorem handOut_params (b : Byte) (s : State) :
    (handOut b s).params = s.params := by
  unfold handOut; split <;> rfl
@[simp] theorem handOut_acts (b : Byte) (s : State) :
    (handOut b s).acts = s.acts := by
  unfold handOut; split <;> rfl
@[simp] theorem handOut_sched (b : Byte) (s : State) :
    (handOut b s).sched = s.sched := by
  unfold handOut; split <;> rfl
@[simp] theorem handOut_session (b : Byte) (s : State) :
    (handOut b s).session = s.session := by
  unfold handOut; split <;> rfl

@[simp] theorem resetBlock_rowbuf (s : State) :
    (resetBlock s).rowbuf = [] := rfl
@[simp] theorem resetBlock_rowlen0 (s : State) :
    (resetBlock s).rowlen0 = 0 := rfl
@[simp] theorem resetBlock_rowlen1 (s : State) :
    (resetBlock s).rowlen1 = 0 := rfl
@[simp] theorem resetBlock_rowlen2 (s : State) :
    (resetBlock s).rowlen2 = 0 := rfl
@[simp] theorem resetBlock_opr (s : State) :
    (resetBlock s).opr = ⟨0, 0, 0⟩ := rfl
@[simp] theorem resetBlock_pkt (s : State) :
    (resetBlock s).pkt = [] := rfl
@[simp] theorem resetBlock_idx (s : State) :
    (resetBlock s).idx = 0 := rfl
@[simp] theorem resetBlock_busy (s : State) :
    (resetBlock s).busy = false := rfl
@[simp] theorem resetBlock_err (s : State) :
    (resetBlock s).err = errOk := rfl
@[simp] theorem resetBlock_txh (s : State) :
    (resetBlock s).txh = s.txh := rfl
@[simp] theorem resetBlock_errs (s : State) :
    (resetBlock s).errs = s.errs := rfl
@[simp] theorem resetBlock_params (s : State) :
    (resetBlock s).params = s.params := rfl
@[simp] theorem resetBlock_acts (s : State) :
    (resetBlock s).acts = s.acts := rfl
@[simp] theorem resetBlock_sched (s : State) :
    (resetBlock s).sched = s.sched := rfl
@[simp] theorem resetBlock_session (s : State) :
    (resetBlock s).session = s.session := rfl

@[simp] theorem setAct_rowbuf (i : Nat) (ops : List HostOp) (s : State) :
    (setAct i ops s).rowbuf = s.rowbuf := rfl
@[simp] theorem setAct_rowlen0 (i : Nat) (ops : List HostOp) (s : State) :
    (setAct i ops s).rowlen0 = s.rowlen0 := rfl
@[simp] theorem setAct_rowlen1 (i : Nat) (ops : List HostOp) (s : State) :
    (setAct i ops s).rowlen1 = s.rowlen1 := rfl
@[simp] theorem setAct_rowlen2 (i : Nat) (ops : List HostOp) (s : State) :
    (setAct i ops s).rowlen2 = s.rowlen2 := rfl
@[simp] theorem setAct_opr (i : Nat) (ops : List HostOp) (s : State) :
    (setAct i ops s).opr = s.opr := rfl
@[simp] theorem setAct_pkt (i : Nat) (ops : List HostOp) (s : State) :
    (setAct i ops s).pkt = s.pkt := rfl
@[simp] theorem setAct_idx (i : Nat) (ops : List HostOp) (s : State) :
    (setAct i ops s).idx = s.idx := rfl
@[simp] theorem setAct_busy (i : Nat) (ops : List HostOp) (s : State) :
    (setAct i ops s).busy = s.busy := rfl
@[simp] theorem setAct_err (i : Nat) (ops : List HostOp) (s : State) :
    (setAct i ops s).err = s.err := rfl
@[simp] theorem setAct_txh (i : Nat) (ops : List HostOp) (s : State) :
    (setAct i ops s).txh = s.txh := rfl
@[simp] theorem setAct_errs (i : Nat) (ops : List HostOp) (s : State) :
    (setAct i ops s).errs = s.errs := rfl
@[simp] theorem setAct_params (i : Nat) (ops : List HostOp) (s : State) :
    (setAct i ops s).params = s.params := rfl
@[simp] theorem setAct_acts (i : Nat) (ops : List HostOp) (s : State) :
    (setAct i ops s).acts = s.acts.set i ops := rfl
@[simp] theorem setAct_sched (i : Nat) (ops : List HostOp) (s : State) :
    (setAct i ops s).sched = s.sched := rfl
@[simp] theorem setAct_session (i : Nat) (ops : List HostOp) (s : State) :
    (setAct i ops s).session = s.session := rfl

@[simp] theorem endCall_rowbuf (i : Nat) (r : CallResult) (next : List HostOp) (s : State) :
    (endCall i r next s).rowbuf = s.rowbuf := rfl
@[simp] theorem endCall_rowlen0 (i : Nat) (r : CallResult) (next : List HostOp) (s : State) :
    (endCall i r next s).rowlen0 = s.rowlen0 := rfl
@[simp] theorem endCall_rowlen1 (i : Nat) (r : CallResult) (next : List HostOp) (s : State) :
    (endCall i r next s).rowlen1 = s.rowlen1 := rfl
@[simp] theorem endCall_rowlen2 (i : Nat) (r : CallResult) (next : List HostOp) (s : State) :
    (endCall i r next s).rowlen2 = s.rowlen2 := rfl
@[simp] theorem endCall_opr (i : Nat) (r : CallResult) (next : List HostOp) (s : State) :
    (endCall i r next s).opr = s.opr := rfl
@[simp] theorem endCall_pkt (i : Nat) (r : CallResult) (next : List HostOp) (s : State) :
    (endCall i r next s).pkt = s.pkt := rfl
@[simp] theorem endCall_idx (i : Nat) (r : CallResult) (next : List HostOp) (s : State) :
    (endCall i r next s).idx = s.idx := rfl
@[simp] theorem endCall_busy (i : Nat) (r : CallResult) (next : List HostOp) (s : State) :
    (endCall i r next s).busy = s.busy := rfl
@[simp] theorem endCall_err (i : Nat) (r : CallResult) (next : List HostOp) (s : State) :
    (endCall i r next s).err = s.err := rfl
@[simp] theorem endCall_txh (i : Nat) (r : CallResult) (next : List HostOp) (s : State) :
    (endCall i r next s).txh = s.txh := rfl
@[simp] theorem endCall_errs (i : Nat) (r : CallResult) (next : List HostOp) (s : State) :
    (endCall i r next s).errs = s.errs := rfl
@[simp] theorem endCall_params (i : Nat) (r : CallResult) (next : List HostOp) (s : State) :
    (endCall i r next s).params = s.params := rfl
@[simp] theorem endCall_acts (i : Nat) (r : CallResult) (next : List HostOp) (s : State) :
    (endCall i r next s).acts = s.acts.set i next := rfl
@[simp] theorem endCall_sched (i : Nat) (r : CallResult) (next : List HostOp) (s : State) :
    (endCall i r next s).sched = s.sched := rfl

@[simp] theorem settle_rowbuf (s : State) :
    (settle s).rowbuf = s.rowbuf := rfl
@[simp] theorem settle_rowlen0 (s : State) :
    (settle s).rowlen0 = s.rowlen0 := rfl
@[simp] theorem settle_rowlen1 (s : State) :
    (settle s).rowlen1 = s.rowlen1 := rfl
@[simp] theorem settle_rowlen2 (s : State) :
    (settle s).rowlen2 = s.rowlen2 := rfl
@[simp] theorem settle_opr (s : State) :
    (settle s).opr = s.opr := rfl
@[simp] theorem settle_pkt (s : State) :
    (settle s).pkt = s.pkt := rfl
@[simp] theorem settle_idx (s : State) :
    (settle s).idx = s.idx := rfl
@[simp] theorem settle_busy (s : State) :
    (settle s).busy = s.busy := rfl
@[simp] theorem settle_err (s : State) :
    (settle s).err = s.err := rfl
@[simp] theorem settle_txh (s : State) :
    (settle s).txh = s.txh := rfl
@[simp] theorem settle_errs (s : State) :
    (settle s).errs = s.errs := rfl
@[simp] theorem settle_params (s : State) :
    (settle s).params = s.params := rfl
@[simp] theorem settle_acts (s : State) :
    (settle s).acts = s.acts := rfl
@[simp] theorem settle_sched (s : State) :
    (settle s).sched = s.sched := rfl

@[simp] theorem loseLink_rowbuf (s : State) :
    (loseLink s).rowbuf = s.rowbuf := by
  unfold loseLink; split <;> rfl
@[simp] theorem loseLink_rowlen0 (s : State) :
    (loseLink s).rowlen0 = s.rowlen0 := by
  unfold loseLink; split <;> rfl
@[simp] theorem loseLink_rowlen1 (s : State) :
    (loseLink s).rowlen1 = s.rowlen1 := by
  unfold loseLink; split <;> rfl
@[simp] theorem loseLink_rowlen2 (s : State) :
    (loseLink s).rowlen2 = s.rowlen2 := by
  unfold loseLink; split <;> rfl
@[simp] theorem loseLink_opr (s : State) :
    (loseLink s).opr = s.opr := by
  unfold loseLink; split <;> rfl
@[simp] theorem loseLink_pkt (s : State) :
    (loseLink s).pkt = s.pkt := by
  unfold loseLink; split <;> rfl
@[simp] theorem loseLink_idx (s : State) :
    (loseLink s).idx = s.idx := by
  unfold loseLink; split <;> rfl
@[simp] theorem loseLink_busy (s : State) :
    (loseLink s).busy = s.busy := by
  unfold loseLink; split <;> rfl
@[simp] theorem loseLink_err (s : State) :
    (loseLink s).err = s.err := by
  unfold loseLink; split <;> rfl
@[simp] theorem loseLink_txh (s : State) :
    (loseLink s).txh = s.txh := by
  unfold loseLink; split <;> rfl
@[simp] theorem loseLink_errs (s : State) :
    (loseLink s).errs = s.errs := by
  unfold loseLink; split <;> rfl
@[simp] theorem loseLink_params (s : State) :
    (loseLink s).params = s.params := by
  unfold loseLink; split <;> rfl
@[simp] theorem loseLink_acts (s : State) :
    (loseLink s).acts = s.acts := by
  unfold loseLink; split <;> rfl
@[simp] theorem loseLink_sched (s : State) :
    (loseLink s).sched = s.sched := by
  unfold loseLink; split <;> rfl

@[simp] theorem loseConnection_rowbuf (h : Nat) (s : State) :
    (loseConnection h s).rowbuf = s.rowbuf := by
  unfold loseConnection; split
  · simp
  · split <;> rfl
@[simp] theorem loseConnection_rowlen0 (h : Nat) (s : State) :
    (loseConnection h s).rowlen0 = s.rowlen0 := by
  unfold loseConnection; split
  · simp
  · split <;> rfl
@[simp] theorem loseConnection_rowlen1 (h : Nat) (s : State) :
    (loseConnection h s).rowlen1 = s.rowlen1 := by
  unfold loseConnection; split
  · simp
  · split <;> rfl
@[simp] theorem loseConnection_rowlen2 (h : Nat) (s : State) :
    (loseConnection h s).rowlen2 = s.rowlen2 := by
  unfold loseConnection; split
  · simp
  · split <;> rfl
@[simp] theorem loseConnection_opr (h : Nat) (s : State) :
    (loseConnection h s).opr = s.opr := by
  unfold loseConnection; split
  · simp
  · split <;> rfl
@[simp] theorem loseConnection_pkt (h : Nat) (s : State) :
    (loseConnection h s).pkt = s.pkt := by
  unfold loseConnection; split
  · simp
  · split <;> rfl
@[simp] theorem loseConnection_idx (h : Nat) (s : State) :
    (loseConnection h s).idx = s.idx := by
  unfold loseConnection; split
  · simp
  · split <;> rfl
@[simp] theorem loseConnection_busy (h : Nat) (s : State) :
    (loseConnection h s).busy = s.busy := by
  unfold loseConnection; split
  · simp
  · split <;> rfl
@[simp] theorem loseConnection_err (h : Nat) (s : State) :
    (loseConnection h s).err = s.err := by
  unfold loseConnection; split
  · simp
  · split <;> rfl
@[simp] theorem loseConnection_txh (h : Nat) (s : State) :
    (loseConnection h s).txh = s.txh := by
  unfold loseConnection; split
  · simp
  · split <;> rfl
@[simp] theorem loseConnection_errs (h : Nat) (s : State) :
    (loseConnection h s).errs = s.errs := by
  unfold loseConnection; split
  · simp
  · split <;> rfl
@[simp] theorem loseConnection_params (h : Nat) (s : State) :
    (loseConnection h s).params = s.params := by
  unfold loseConnection; split
  · simp
  · split <;> rfl
@[simp] theorem loseConnection_acts (h : Nat) (s : State) :
    (loseConnection h s).acts = s.acts := by
  unfold loseConnection; split
  · simp
  · split <;> rfl
@[simp] theorem loseConnection_sched (h : Nat) (s : State) :
    (loseConnection h s).sched = s.sched := by
  unfold loseConnection; split
  · simp
  · split <;> rfl

@[simp] theorem tearLink_rowbuf (s : State) :
    (tearLink s).rowbuf = s.rowbuf := by
  unfold tearLink; split <;> simp
@[simp] theorem tearLink_rowlen0 (s : State) :
    (tearLink s).rowlen0 = s.rowlen0 := by
  unfold tearLink; split <;> simp
@[simp] theorem tearLink_rowlen1 (s : State) :
    (tearLink s).rowlen1 = s.rowlen1 := by
  unfold tearLink; split <;> simp
@[simp] theorem tearLink_rowlen2 (s : State) :
    (tearLink s).rowlen2 = s.rowlen2 := by
  unfold tearLink; split <;> simp
@[simp] theorem tearLink_opr (s : State) :
    (tearLink s).opr = s.opr := by
  unfold tearLink; split <;> simp
@[simp] theorem tearLink_pkt (s : State) :
    (tearLink s).pkt = s.pkt := by
  unfold tearLink; split <;> simp
@[simp] theorem tearLink_idx (s : State) :
    (tearLink s).idx = s.idx := by
  unfold tearLink; split <;> simp
@[simp] theorem tearLink_busy (s : State) :
    (tearLink s).busy = s.busy := by
  unfold tearLink; split <;> simp
@[simp] theorem tearLink_err (s : State) :
    (tearLink s).err = s.err := by
  unfold tearLink; split <;> simp
@[simp] theorem tearLink_txh (s : State) :
    (tearLink s).txh = s.txh := by
  unfold tearLink; split <;> simp
@[simp] theorem tearLink_errs (s : State) :
    (tearLink s).errs = s.errs := by
  unfold tearLink; split <;> simp
@[simp] theorem tearLink_params (s : State) :
    (tearLink s).params = s.params := by
  unfold tearLink; split <;> simp
@[simp] theorem tearLink_acts (s : State) :
    (tearLink s).acts = s.acts := by
  unfold tearLink; split <;> simp
@[simp] theorem tearLink_sched (s : State) :
    (tearLink s).sched = s.sched := by
  unfold tearLink; split <;> simp

@[simp] theorem settleFirst_rowbuf (s : State) :
    (settleFirst s).rowbuf = s.rowbuf := by
  unfold settleFirst; split <;> rfl
@[simp] theorem settleFirst_rowlen0 (s : State) :
    (settleFirst s).rowlen0 = s.rowlen0 := by
  unfold settleFirst; split <;> rfl
@[simp] theorem settleFirst_rowlen1 (s : State) :
    (settleFirst s).rowlen1 = s.rowlen1 := by
  unfold settleFirst; split <;> rfl
@[simp] theorem settleFirst_rowlen2 (s : State) :
    (settleFirst s).rowlen2 = s.rowlen2 := by
  unfold settleFirst; split <;> rfl
@[simp] theorem settleFirst_opr (s : State) :
    (settleFirst s).opr = s.opr := by
  unfold settleFirst; split <;> rfl
@[simp] theorem settleFirst_pkt (s : State) :
    (settleFirst s).pkt = s.pkt := by
  unfold settleFirst; split <;> rfl
@[simp] theorem settleFirst_idx (s : State) :
    (settleFirst s).idx = s.idx := by
  unfold settleFirst; split <;> rfl
@[simp] theorem settleFirst_busy (s : State) :
    (settleFirst s).busy = s.busy := by
  unfold settleFirst; split <;> rfl
@[simp] theorem settleFirst_err (s : State) :
    (settleFirst s).err = s.err := by
  unfold settleFirst; split <;> rfl
@[simp] theorem settleFirst_txh (s : State) :
    (settleFirst s).txh = s.txh := by
  unfold settleFirst; split <;> rfl
@[simp] theorem settleFirst_errs (s : State) :
    (settleFirst s).errs = s.errs := by
  unfold settleFirst; split <;> rfl
@[simp] theorem settleFirst_params (s : State) :
    (settleFirst s).params = s.params := by
  unfold settleFirst; split <;> rfl
@[simp] theorem settleFirst_acts (s : State) :
    (settleFirst s).acts = s.acts := by
  unfold settleFirst; split <;> rfl
@[simp] theorem settleFirst_sched (s : State) :
    (settleFirst s).sched = s.sched := by
  unfold settleFirst; split <;> rfl

@[simp] theorem noteLast_rowbuf (s : State) :
    (noteLast s).rowbuf = s.rowbuf := by
  unfold noteLast; split <;> rfl
@[simp] theorem noteLast_rowlen0 (s : State) :
    (noteLast s).rowlen0 = s.rowlen0 := by
  unfold noteLast; split <;> rfl
@[simp] theorem noteLast_rowlen1 (s : State) :
    (noteLast s).rowlen1 = s.rowlen1 := by
  unfold noteLast; split <;> rfl
@[simp] theorem noteLast_rowlen2 (s : State) :
    (noteLast s).rowlen2 = s.rowlen2 := by
  unfold noteLast; split <;> rfl
@[simp] theorem noteLast_opr (s : State) :
    (noteLast s).opr = s.opr := by
  unfold noteLast; split <;> rfl
@[simp] theorem noteLast_pkt (s : State) :
    (noteLast s).pkt = s.pkt := by
  unfold noteLast; split <;> rfl
@[simp] theorem noteLast_idx (s : State) :
    (noteLast s).idx = s.idx := by
  unfold noteLast; split <;> rfl
@[simp] theorem noteLast_busy (s : State) :
    (noteLast s).busy = s.busy := by
  unfold noteLast; split <;> rfl
@[simp] theorem noteLast_err (s : State) :
    (noteLast s).err = s.err := by
  unfold noteLast; split <;> rfl
@[simp] theorem noteLast_txh (s : State) :
    (noteLast s).txh = s.txh := by
  unfold noteLast; split <;> rfl
@[simp] theorem noteLast_errs (s : State) :
    (noteLast s).errs = s.errs := by
  unfold noteLast; split <;> rfl
@[simp] theorem noteLast_params (s : State) :
    (noteLast s).params = s.params := by
  unfold noteLast; split <;> rfl
@[simp] theorem noteLast_acts (s : State) :
    (noteLast s).acts = s.acts := by
  unfold noteLast; split <;> rfl
@[simp] theorem noteLast_sched (s : State) :
    (noteLast s).sched = s.sched := by
  unfold noteLast; split <;> rfl

@[simp] theorem hostTakes_rowbuf (s : State) :
    (hostTakes s).rowbuf = s.rowbuf := by
  simp [hostTakes]
@[simp] theorem hostTakes_rowlen0 (s : State) :
    (hostTakes s).rowlen0 = s.rowlen0 := by
  simp [hostTakes]
@[simp] theorem hostTakes_rowlen1 (s : State) :
    (hostTakes s).rowlen1 = s.rowlen1 := by
  simp [hostTakes]
@[simp] theorem hostTakes_rowlen2 (s : State) :
    (hostTakes s).rowlen2 = s.rowlen2 := by
  simp [hostTakes]
@[simp] theorem hostTakes_opr (s : State) :
    (hostTakes s).opr = s.opr := by
  simp [hostTakes]
@[simp] theorem hostTakes_pkt (s : State) :
    (hostTakes s).pkt = s.pkt := by
  simp [hostTakes]
@[simp] theorem hostTakes_idx (s : State) :
    (hostTakes s).idx = s.idx := by
  simp [hostTakes]
@[simp] theorem hostTakes_busy (s : State) :
    (hostTakes s).busy = s.busy := by
  simp [hostTakes]
@[simp] theorem hostTakes_err (s : State) :
    (hostTakes s).err = s.err := by
  simp [hostTakes]
@[simp] theorem hostTakes_txh (s : State) :
    (hostTakes s).txh = s.txh := by
  simp [hostTakes]
@[simp] theorem hostTakes_errs (s : State) :
    (hostTakes s).errs = s.errs := by
  simp [hostTakes]
@[simp] theorem hostTakes_params (s : State) :
    (hostTakes s).params = s.params := by
  simp [hostTakes]
@[simp] theorem hostTakes_acts (s : State) :
    (hostTakes s).acts = s.acts := by
  simp [hostTakes]
@[simp] theorem hostTakes_sched (s : State) :
    (hostTakes s).sched = s.sched := by
  simp [hostTakes]

end Sys2Proof.Laws
end

