-- ==== Sys2Proof/Laws/Exec.lean ====
section
/-! SUPPORT. What each shared operation can answer, and from these what an instruction can do: one inversion
lemma per operation, one for `exec`. -/

namespace Sys2Proof.Laws

open Sys2Proof.Machine

/-! ## The validation and the packet of `SETTEXT` -/

theorem mem_requestRows {n : BitVec 3} {r : Fin 3} : r ∈ requestRows n ↔ r.val < n.toNat := by
  fin_cases r <;> simp [requestRows]

/-- `SETTEXT n` passes validation exactly for one to three rows that fit (43 R124). -/
theorem settextError_none {s : State} {n : BitVec 3} :
    settextError s n = none ↔ (1 ≤ n.toNat ∧ n.toNat ≤ 3) ∧ RowsFit s n := by
  have hany : (requestRows n).any (fun r => decide (rowWidth < (rowLen s r).toNat)) = false ↔ RowsFit s n := by
    simp only [List.any_eq_false, mem_requestRows, decide_eq_true_eq, Nat.not_lt]
    rfl
  unfold settextError maxRows
  split
  · simp; omega
  · split
    · simp; omega
    · cases h : (requestRows n).any (fun r => decide (rowWidth < (rowLen s r).toNat))
      · simp only [Bool.false_eq_true, ↓reduceIte, true_iff]
        exact ⟨by omega, hany.1 h⟩
      · simp only [↓reduceIte, reduceCtorEq, false_iff]
        intro hc
        rw [hany.2 hc.2] at h
        cases h

/-- What `rowBlocks` has read when it answers blocks: the text of each row. -/
theorem rowBlocks_texts {s : State} {n : Nat} {rs : List (Fin 3)} {bytes : List Byte}
    (h : rowBlocks s n rs = .ok bytes) :
    ∃ ts, List.Forall₂ (fun r t => rowText s r = .ok t) rs ts := by
  induction rs generalizing bytes with
  | nil => exact ⟨[], .nil⟩
  | cons r rs ih =>
    unfold rowBlocks at h
    split at h
    · cases h
    · next t ht =>
      split at h
      · cases h
      · split at h
        · cases h
        · next hb =>
          obtain ⟨ts, hts⟩ := ih hb
          exact ⟨t :: ts, .cons ht hts⟩

theorem rowCode_of_rows {n : Nat} (h1 : 1 ≤ n) (h3 : n ≤ 3) :
    ∃ c, rowCode n = some c ∧ rowsOfCode c = some n := by
  interval_cases n <;> exact ⟨_, rfl, by decide⟩

/-- The packet of a `SETTEXT` that passes validation and reads the texts `ts` (43 R125). -/
theorem setTextPacket_of_texts {s : State} {n : BitVec 3} {ts : List (List Byte)}
    (hv : settextError s n = none)
    (hts : List.Forall₂ (fun r t => rowText s r = .ok t) (requestRows n) ts) :
    ∃ c, rowCode n.toNat = some c ∧ rowsOfCode c = some n.toNat ∧
      setTextPacket s n = .ok (leadSetText :: c :: ((requestRows n).zip ts).flatMap
        fun rt => rowBlockBytes (builtBlock s.params rt.1.val n.toNat rt.2)) := by
  obtain ⟨⟨h1, h3⟩, -⟩ := settextError_none.1 hv
  obtain ⟨c, hc, hn⟩ := rowCode_of_rows h1 h3
  refine ⟨c, hc, hn, ?_⟩
  simp [setTextPacket, hv, hc, rowBlocks_ok h3 (fun r hr => mem_requestRows.1 hr) hts]

/-- What a `SETTEXT` has checked and read when it has a packet. -/
theorem setTextPacket_spec {s : State} {n : BitVec 3} {bytes : List Byte}
    (h : setTextPacket s n = .ok bytes) :
    settextError s n = none ∧
      ∃ ts, List.Forall₂ (fun r t => rowText s r = .ok t) (requestRows n) ts := by
  unfold setTextPacket at h
  split at h
  · cases h
  · cases h
  · next hv hc =>
    split at h
    · cases h
    · next hb => exact ⟨hv, rowBlocks_texts hb⟩

theorem rowText_length {s : State} {n : BitVec 3} (hf : RowsFit s n) {r : Fin 3} (hr : r.val < n.toNat)
    {t : List Byte} (h : rowText s r = .ok t) : t.length = (rowLen s r).toNat ∧ t.length ≤ 35 := by
  have := (readCells_spec h).1
  have := hf r hr
  omega

/-- The text of a written row: as long as its length register says, each byte the value of its cell. -/
theorem rowText_of_written {s : State} {n : BitVec 3} (hw : RowsWritten s n) {r : Fin 3}
    (hr : r.val < n.toNat) : ∃ t, rowText s r = .ok t := by
  refine ⟨(List.range (rowLen s r).toNat).map
    (fun k => (memRead s.rowbuf (cellAddr r.val k)).getD 0), readCells_ok _ (by simp) ?_⟩
  intro k hk
  simp only [List.length_map, List.length_range] at hk
  obtain ⟨b, hb⟩ := Option.isSome_iff_exists.1 (hw r hr k hk)
  simp [hb]

theorem texts_of_written {s : State} {n : BitVec 3} (hw : RowsWritten s n) :
    ∀ rs : List (Fin 3), (∀ r ∈ rs, r.val < n.toNat) →
      ∃ ts, List.Forall₂ (fun r t => rowText s r = .ok t) rs ts := by
  intro rs
  induction rs with
  | nil => exact fun _ => ⟨[], .nil⟩
  | cons r rs ih =>
    intro h
    obtain ⟨t, ht⟩ := rowText_of_written hw (h r (List.mem_cons_self ..))
    obtain ⟨ts, hts⟩ := ih fun q hq => h q (List.mem_cons_of_mem _ hq)
    exact ⟨t :: ts, .cons ht hts⟩

theorem requestRows_one {n : BitVec 3} (h : n.toNat = 1) : requestRows n = [0] := by
  simp [requestRows, h]
theorem requestRows_two {n : BitVec 3} (h : n.toNat = 2) : requestRows n = [0, 1] := by
  simp [requestRows, h]
theorem requestRows_three {n : BitVec 3} (h : n.toNat = 3) : requestRows n = [0, 1, 2] := by
  simp [requestRows, h]

/-! ## Packets the framer builds are packets of the table's formats -/

theorem isWirePacket_of_decode {bytes : List Byte} {i : Instr} (h : decodeTx bytes = .ok i)
    (hi : i.wf = true) : isWirePacket bytes = true := by
  simp [isWirePacket, decode, h, hi]

theorem wirePacket_pageSel (p : BitVec 12) : isWirePacket (pageSelPacket p) = true := by
  simp [isWirePacket, pageSelPacket, decode, decodeTx, decodePageSel, leadPageSel, Instr.wf,
    ham, hamTable]
  exact ⟨⟨isCodeword_ham _, isCodeword_ham _⟩, isCodeword_ham _⟩

theorem wirePacket_reveal : isWirePacket [byteReveal] = true := by decide

theorem wirePacket_clear : isWirePacket [byteClear] = true := by decide

theorem wirePacket_setText {s : State} {n : BitVec 3} {bytes : List Byte}
    (h : setTextPacket s n = .ok bytes) : isWirePacket bytes = true := by
  obtain ⟨hv, ts, hts⟩ := setTextPacket_spec h
  obtain ⟨⟨h1, h3⟩, hfit⟩ := settextError_none.1 hv
  obtain ⟨c, hc, hn, hp⟩ := setTextPacket_of_texts hv hts
  rw [hp] at h
  cases h
  have hwf : ∀ r : Fin 3, ∀ t, r.val < n.toNat → rowText s r = .ok t →
      (builtBlock s.params r.val n.toNat t).wf (slotOf n.toNat r.val) = true :=
    fun r t hr ht => builtBlock_wf _ _ _ (rowText_length hfit hr ht).2
  have hlen : n.toNat = 1 ∨ n.toNat = 2 ∨ n.toNat = 3 := by omega
  rcases hlen with hl | hl | hl
  · rw [requestRows_one hl] at hts ⊢
    rcases hts with _ | ⟨ht0, hts⟩
    cases hts
    have w0 := hwf 0 _ (by simp [hl]) ht0
    rw [hl] at hn w0 ⊢
    have h0 := text_length_of_wf w0
    exact isWirePacket_of_decode
      (decodeTx_setText (bs := [builtBlock s.params 0 1 _]) hn (by simpa using h0)) w0
  · rw [requestRows_two hl] at hts ⊢
    rcases hts with _ | ⟨ht0, hts⟩
    rcases hts with _ | ⟨ht1, hts⟩
    cases hts
    have w0 := hwf 0 _ (by simp [hl]) ht0
    have w1 := hwf 1 _ (by simp [hl]) ht1
    rw [hl] at hn w0 w1 ⊢
    have h0 := text_length_of_wf w0
    have h1 := text_length_of_wf w1
    exact isWirePacket_of_decode
      (decodeTx_setText (bs := [builtBlock s.params 0 2 _, builtBlock s.params 1 2 _]) hn
        (by simpa using ⟨h0, h1⟩)) (Bool.and_eq_true _ _ ▸ ⟨w0, w1⟩)
  · rw [requestRows_three hl] at hts ⊢
    rcases hts with _ | ⟨ht0, hts⟩
    rcases hts with _ | ⟨ht1, hts⟩
    rcases hts with _ | ⟨ht2, hts⟩
    cases hts
    have w0 := hwf 0 _ (by simp [hl]) ht0
    have w1 := hwf 1 _ (by simp [hl]) ht1
    have w2 := hwf 2 _ (by simp [hl]) ht2
    rw [hl] at hn w0 w1 w2 ⊢
    have h0 := text_length_of_wf w0
    have h1 := text_length_of_wf w1
    have h2 := text_length_of_wf w2
    exact isWirePacket_of_decode
      (decodeTx_setText (bs := [builtBlock s.params 0 3 _, builtBlock s.params 1 3 _,
        builtBlock s.params 2 3 _]) hn (by simpa using ⟨h0, h1, h2⟩))
      (by simpa [Instr.wf] using ⟨⟨w0, w1⟩, w2⟩)

/-! ## What each shared operation and each instruction can answer -/

theorem accept_next {o : Opr} {built : Except NoPacket (List Byte)} {s t : State}
    (h : accept o built s = .next t) :
    (s.busy = true ∧ t = s) ∨
    (s.busy = false ∧ ((∃ e, built = .error (.raises e) ∧ t = raise e (latch o s)) ∨
      ∃ p, built = .ok p ∧ t = launch p (latch o s))) := by
  unfold accept at h
  split at h
  · next hb => cases h; exact .inl ⟨hb, rfl⟩
  · next hb =>
    refine .inr ⟨by simpa using hb, ?_⟩
    split at h
    · cases h; exact .inr ⟨_, rfl, rfl⟩
    · cases h; exact .inl ⟨_, rfl, rfl⟩
    · cases h

theorem acceptWrite_next {w : State → State} {s t : State} (h : acceptWrite w s = .next t) :
    (s.busy = true ∧ t = s) ∨ (s.busy = false ∧ t = w s) := by
  unfold acceptWrite at h
  split at h
  · next hb => cases h; exact .inl ⟨hb, rfl⟩
  · next hb => cases h; exact .inr ⟨by simpa using hb, rfl⟩

/-- A `TX` step hands out the byte at `IDX`, or nothing is offered (43 R130). -/
theorem txTransfer_next {s t : State} (h : txTransfer s = .next t) :
    (s.busy = false ∧ t = s) ∨
    (s.busy = true ∧ ∃ b, s.pkt[s.idx.toNat]? = some b ∧ t = handOut b s) := by
  unfold txTransfer at h
  split at h
  · next hb =>
    split at h
    · next b hg => cases h; exact .inr ⟨hb, b, hg, rfl⟩
    · cases h
  · next hb => cases h; exact .inl ⟨by simpa using hb, rfl⟩

theorem txPacketByte_next {bytes : List Byte} {s t : State} (h : txPacketByte bytes s = .next t) :
    t = s ∨ (s.busy = true ∧ s.pkt = bytes ∧ ∃ b, s.pkt[s.idx.toNat]? = some b ∧ t = handOut b s) := by
  unfold txPacketByte at h
  split at h
  · next hc =>
    simp only [Bool.and_eq_true, beq_iff_eq] at hc
    rcases txTransfer_next h with ⟨-, rfl⟩ | ⟨-, hb⟩
    · exact .inl rfl
    · exact .inr ⟨hc.1, hc.2, hb⟩
  · cases h; exact .inl rfl

/-- What an instruction can do when it answers a next state: wait; write a cell; write a length; fail with an
error; put a packet of the table's formats in flight; hand out a byte. -/
theorem exec_next {i : Instr} {s t : State} (h : exec i s = .next t) :
    t = s ∨
    (s.busy = false ∧ ∃ r k b, i = .wrch r k b ∧ t = writeCell r k b s) ∨
    (s.busy = false ∧ ∃ r x n, i = .wrlen r x n ∧ t = writeLen r n s) ∨
    (s.busy = false ∧ ∃ o e, commandOpr i = some o ∧ t = raise e (latch o s)) ∨
    (s.busy = false ∧ ∃ o p, commandOpr i = some o ∧ isWirePacket p = true ∧ t = launch p (latch o s)) ∨
    (s.busy = true ∧ encode i = .tx s.pkt ∧ ∃ b, s.pkt[s.idx.toNat]? = some b ∧ t = handOut b s) := by
  have cmd : ∀ {o built}, commandOpr i = some o → (∀ p, built = .ok p → isWirePacket p = true) →
      accept o built s = .next t →
      t = s ∨
      (s.busy = false ∧ ∃ o e, commandOpr i = some o ∧ t = raise e (latch o s)) ∨
      (s.busy = false ∧ ∃ o p, commandOpr i = some o ∧ isWirePacket p = true ∧
        t = launch p (latch o s)) := by
    intro o built ho hp ha
    rcases accept_next ha with ⟨-, rfl⟩ | ⟨hb, ⟨e, -, rfl⟩ | ⟨p, he, rfl⟩⟩
    · exact .inl rfl
    · exact .inr (.inl ⟨hb, o, e, ho, rfl⟩)
    · exact .inr (.inr ⟨hb, o, p, ho, hp p he, rfl⟩)
  have fin {A B C D E : Prop} : A ∨ B ∨ C → A ∨ D ∨ E ∨ B ∨ C ∨ (s.busy = true ∧ encode i = .tx s.pkt ∧
      ∃ b, s.pkt[s.idx.toNat]? = some b ∧ t = handOut b s) := by
    rintro (h | h | h)
    · exact .inl h
    · exact .inr (.inr (.inr (.inl h)))
    · exact .inr (.inr (.inr (.inr (.inl h))))
  have tx : ∀ {bytes}, encode i = .tx bytes → txPacketByte bytes s = .next t →
      t = s ∨ (s.busy = true ∧ encode i = .tx s.pkt ∧
        ∃ b, s.pkt[s.idx.toNat]? = some b ∧ t = handOut b s) := by
    intro bytes he ht
    rcases txPacketByte_next ht with rfl | ⟨hb, hp, hg⟩
    · exact .inl rfl
    · exact .inr ⟨hb, hp ▸ he, hg⟩
  cases i with
  | wrch r k b =>
    rcases acceptWrite_next h with ⟨-, rfl⟩ | ⟨hb, rfl⟩
    · exact .inl rfl
    · exact .inr (.inl ⟨hb, r, k, b, rfl, rfl⟩)
  | wrlen r x n =>
    rcases acceptWrite_next h with ⟨-, rfl⟩ | ⟨hb, rfl⟩
    · exact .inl rfl
    · exact .inr (.inr (.inl ⟨hb, r, x, n, rfl, rfl⟩))
  | pagesel p n =>
    exact fin (cmd (built := .ok (pageSelPacket (pageOperand s.params p))) rfl
      (fun q hq => by cases hq; exact wirePacket_pageSel _) h)
  | settext p n =>
    exact fin (cmd (built := setTextPacket s n) rfl (fun q hq => wirePacket_setText hq) h)
  | reveal p n =>
    exact fin (cmd (built := .ok [byteReveal]) rfl (fun q hq => by cases hq; exact wirePacket_reveal) h)
  | clear p n =>
    exact fin (cmd (built := .ok [byteClear]) rfl (fun q hq => by cases hq; exact wirePacket_clear) h)
  | wirePageSel a b c => exact (tx rfl h).imp id fun hx => .inr (.inr (.inr (.inr hx)))
  | wireSetText1 b0 => exact (tx rfl h).imp id fun hx => .inr (.inr (.inr (.inr hx)))
  | wireSetText2 b0 b1 => exact (tx rfl h).imp id fun hx => .inr (.inr (.inr (.inr hx)))
  | wireSetText3 b0 b1 b2 => exact (tx rfl h).imp id fun hx => .inr (.inr (.inr (.inr hx)))
  | wireReveal => exact (tx rfl h).imp id fun hx => .inr (.inr (.inr (.inr hx)))
  | wireClear => exact (tx rfl h).imp id fun hx => .inr (.inr (.inr (.inr hx)))

/-- An instruction is never refused. -/
theorem exec_not_refused (i : Instr) (s : State) (x : Refusal) : exec i s ≠ .refused x := by
  have ha : ∀ o built, accept o built s ≠ .refused x := by
    intro o built h; unfold accept at h; split at h <;> first | cases h | (split at h <;> cases h)
  have hw : ∀ w, acceptWrite w s ≠ .refused x := by
    intro w h; unfold acceptWrite at h; split at h <;> cases h
  have ht : ∀ bytes, txPacketByte bytes s ≠ .refused x := by
    intro bytes h
    unfold txPacketByte txTransfer at h
    split at h
    · split at h
      · split at h <;> cases h
      · cases h
    · cases h
  cases i with
  | wrch r k b => exact hw _
  | wrlen r x n => exact hw _
  | pagesel p n => exact ha _ (.ok (pageSelPacket (pageOperand s.params p)))
  | settext p n => exact ha _ (setTextPacket s n)
  | reveal p n => exact ha _ (.ok [byteReveal])
  | clear p n => exact ha _ (.ok [byteClear])
  | wirePageSel a b c => exact ht _
  | wireSetText1 b0 => exact ht _
  | wireSetText2 b0 b1 => exact ht _
  | wireSetText3 b0 b1 b2 => exact ht _
  | wireReveal => exact ht _
  | wireClear => exact ht _

end Sys2Proof.Laws
end

