-- ==== Sys2Proof/Laws/PerInstr.lean ====
section
/-! SUPPORT. One statement about every instruction as syntax, with one lemma per constructor: the length of
what it puts on `TX`, as spec/opcode_table.json gives it in "length_bytes" (43 R132), and that the length can
be told from the first two bytes alone (30_encoding R56). -/

namespace Sys2Proof.Laws.WireLength

open Sys2Proof.Machine

/-- "length_bytes" of the instruction's row; a host operation's row has none, it puts nothing on `TX`. -/
def tableLength : Instr → Nat
  | .wrch _ _ _ => 0
  | .wrlen _ _ _ => 0
  | .pagesel _ _ => 0
  | .settext _ _ => 0
  | .reveal _ _ => 0
  | .clear _ _ => 0
  | .wirePageSel _ _ _ => 5
  | .wireSetText1 _ => 44
  | .wireSetText2 _ _ => 86
  | .wireSetText3 _ _ _ => 128
  | .wireReveal => 1
  | .wireClear => 1

/-- The row's length, and that the first bytes tell it. -/
def Statement (i : Instr) : Prop :=
  i.wf = true →
    (wireBytes i).length = tableLength i ∧ packetLength (wireBytes i) = tableLength i

theorem wrch (row : BitVec 2) (idx : BitVec 6) (data : Byte) : Statement (.wrch row idx data) :=
  fun _ => ⟨rfl, rfl⟩
theorem wrlen (row : BitVec 2) (ign : BitVec 8) (len : BitVec 6) : Statement (.wrlen row ign len) :=
  fun _ => ⟨rfl, rfl⟩
theorem pagesel (page : BitVec 12) (nrows : BitVec 3) : Statement (.pagesel page nrows) :=
  fun _ => ⟨rfl, rfl⟩
theorem settext (page : BitVec 12) (nrows : BitVec 3) : Statement (.settext page nrows) :=
  fun _ => ⟨rfl, rfl⟩
theorem reveal (page : BitVec 12) (nrows : BitVec 3) : Statement (.reveal page nrows) :=
  fun _ => ⟨rfl, rfl⟩
theorem clear (page : BitVec 12) (nrows : BitVec 3) : Statement (.clear page nrows) :=
  fun _ => ⟨rfl, rfl⟩
theorem wirePageSel (h t u : Byte) : Statement (.wirePageSel h t u) :=
  fun _ => ⟨rfl, rfl⟩
theorem wireSetText1 (b0 : RowBlock) : Statement (.wireSetText1 b0) := fun h => by
  have h0 := rowBlockBytes_length (text_length_of_wf h)
  exact ⟨by simp [wireBytes, encode, h0, tableLength], rfl⟩
theorem wireSetText2 (b0 b1 : RowBlock) : Statement (.wireSetText2 b0 b1) := fun h => by
  obtain ⟨w0, w1⟩ := (Bool.and_eq_true _ _).mp h
  have h0 := rowBlockBytes_length (text_length_of_wf w0)
  have h1 := rowBlockBytes_length (text_length_of_wf w1)
  exact ⟨by simp [wireBytes, encode, h0, h1, tableLength], rfl⟩
theorem wireSetText3 (b0 b1 b2 : RowBlock) : Statement (.wireSetText3 b0 b1 b2) := fun h => by
  obtain ⟨w01, w2⟩ := (Bool.and_eq_true _ _).mp h
  obtain ⟨w0, w1⟩ := (Bool.and_eq_true _ _).mp w01
  have h0 := rowBlockBytes_length (text_length_of_wf w0)
  have h1 := rowBlockBytes_length (text_length_of_wf w1)
  have h2 := rowBlockBytes_length (text_length_of_wf w2)
  exact ⟨by simp [wireBytes, encode, h0, h1, h2, tableLength], rfl⟩
theorem wireReveal : Statement .wireReveal := fun _ => ⟨rfl, rfl⟩
theorem wireClear : Statement .wireClear := fun _ => ⟨rfl, rfl⟩

end Sys2Proof.Laws.WireLength
end

