-- ==== Sys2Proof/Laws/Packets.lean ====
section
/-! SUPPORT. Packets and the wire rows they decode to: a packet is the encoding of what it decodes to, its
length is the row's, and a wire row's meaning is the `TX` step. -/

namespace Sys2Proof.Laws

open Sys2Proof.Machine

/-- What a packet's bytes decode to stands on `TX` with those bytes. -/
theorem encode_of_decodeTx {bytes : List Byte} {i : Instr} (h : decodeTx bytes = .ok i) :
    encode i = .tx bytes := by
  unfold decodeTx at h
  split at h
  · cases h
  · next lead rest =>
    split at h
    · next hl =>
      subst hl
      unfold decodePageSel at h
      split at h
      · split at h
        · next hc => cases h; subst hc; rfl
        · cases h
      · cases h
      · cases h
    · split at h
      · next hl =>
        subst hl
        unfold decodeSetText at h
        split at h
        · cases h
        · next code rest =>
          split at h
          · cases h
          · next n hn =>
            have hcode : (n = 1 → code = 0xC7) ∧ (n = 2 → code = 0x8C) ∧ (n = 3 → code = 0x9B) := by
              unfold rowsOfCode at hn
              split at hn
              · cases hn; simp_all
              · split at hn
                · cases hn; simp_all
                · split at hn
                  · cases hn; simp_all
                  · cases hn
            split at h
            · cases h
            · next hb =>
              obtain ⟨h1, h2⟩ := bytes_of_rowBlocksOf hb
              cases h
              rw [hcode.1 h1.symm, h2]; simp [encode]
            · next hb =>
              obtain ⟨h1, h2⟩ := bytes_of_rowBlocksOf hb
              cases h
              rw [hcode.2.1 h1.symm, h2]; simp [encode]
            · next hb =>
              obtain ⟨h1, h2⟩ := bytes_of_rowBlocksOf hb
              cases h
              rw [hcode.2.2 h1.symm, h2]; simp [encode]
            · cases h
      · split at h
        · next hl =>
          split at h
          · next hr => cases h; subst hl hr; rfl
          · cases h
        · split at h
          · next hl =>
            split at h
            · next hr => cases h; subst hl hr; rfl
            · cases h
          · cases h

/-- The meaning of a wire row whose packet is in flight is the `TX` step (43 R130). -/
theorem exec_wire {i : Instr} {s : State} (he : encode i = .tx s.pkt) :
    exec i s = txTransfer s := by
  have hw : exec i s = txPacketByte (wireBytes i) s := by
    cases i <;> first | rfl | cases he
  have hb : wireBytes i = s.pkt := by unfold wireBytes; rw [he]
  rw [hw, hb]
  unfold txPacketByte txTransfer
  cases s.busy <;> simp

theorem wireLength_all (i : Instr) : WireLength.Statement i := by
  cases i with
  | wrch row idx data => exact WireLength.wrch row idx data
  | wrlen row ign len => exact WireLength.wrlen row ign len
  | pagesel page nrows => exact WireLength.pagesel page nrows
  | settext page nrows => exact WireLength.settext page nrows
  | reveal page nrows => exact WireLength.reveal page nrows
  | clear page nrows => exact WireLength.clear page nrows
  | wirePageSel h t u => exact WireLength.wirePageSel h t u
  | wireSetText1 b0 => exact WireLength.wireSetText1 b0
  | wireSetText2 b0 b1 => exact WireLength.wireSetText2 b0 b1
  | wireSetText3 b0 b1 b2 => exact WireLength.wireSetText3 b0 b1 b2
  | wireReveal => exact WireLength.wireReveal
  | wireClear => exact WireLength.wireClear

/-- A packet the framer can build has 1, 5, 44, 86 or 128 bytes (43 R132). -/
theorem wirePacket_length {bytes : List Byte} (h : isWirePacket bytes = true) :
    bytes.length ∈ [1, 5, 44, 86, 128] := by
  unfold isWirePacket at h
  split at h
  · next i hi =>
    have he := encode_of_decodeTx hi
    have hl := (wireLength_all i h).1
    have hw : wireBytes i = bytes := by unfold wireBytes; rw [he]
    rw [hw] at hl
    rw [hl]
    cases i <;> first | (simp [WireLength.tableLength]; done) | simp [encode] at he
  · cases h

end Sys2Proof.Laws
end

