-- ==== Sys2Proof/Laws/Drive.lean ====
section
/-! SUPPORT. What a step can do: which move is chosen, and what each move does to block and host. -/

namespace Sys2Proof.Laws

open Sys2Proof.Machine

/-- The choice notes itself in the state and does nothing else; the move chosen is an enabled one. -/
theorem chooseMove_some {s s' : State} {m : Move} (h : chooseMove s = some (m, s')) :
    s' = { s with sched := s'.sched } ∧ m ∈ enabledMoves s := by
  unfold chooseMove at h
  split at h
  · cases h
  · next m' he => cases h; exact ⟨rfl, by simp [he]⟩
  · next m' ms _ he =>
    obtain ⟨rfl, rfl⟩ := Prod.mk.inj (Option.some.inj h)
    refine ⟨rfl, ?_⟩
    rw [he]
    have hlt : Config.pick s.sched % (m' :: ms).length < (m' :: ms).length :=
      Nat.mod_lt _ (by simp)
    rw [List.getD_eq_getElem?_getD, List.getElem?_eq_getElem hlt, Option.getD_some]
    exact List.getElem_mem hlt

/-- What the choice leaves as it is: everything but the counter. -/
theorem chooseMove_block {s s' : State} {m : Move} (h : chooseMove s = some (m, s')) :
    SameBlock s s' ∧ s'.txh = s.txh ∧ s'.errs = s.errs ∧ s'.params = s.params ∧ s'.acts = s.acts ∧
      s'.session = s.session := by
  rw [(chooseMove_some h).1]
  exact ⟨⟨rfl, rfl, rfl, rfl, rfl, rfl, rfl, rfl, rfl⟩, rfl, rfl, rfl, rfl, rfl⟩

/-- A next state of the step: nothing is enabled, or the chosen move ran. -/
theorem step_next {s t : State} (h : step s = .next t) :
    t = s ∨ ∃ m s', chooseMove s = some (m, s') ∧ runMove m s' = .next t := by
  unfold step at h
  split at h
  · cases h; exact .inl rfl
  · next m s' hc => exact .inr ⟨m, s', hc, h⟩

/-- What stays when the host alone moves: the block, the records and the parameters. -/
def HostOnly (s t : State) : Prop :=
  SameBlock s t ∧ t.txh = s.txh ∧ t.errs = s.errs ∧ t.params = s.params

theorem HostOnly.refl (s : State) : HostOnly s s :=
  ⟨⟨rfl, rfl, rfl, rfl, rfl, rfl, rfl, rfl, rfl⟩, rfl, rfl, rfl⟩

theorem setAct_hostOnly (i : Nat) (ops : List HostOp) (s : State) : HostOnly s (setAct i ops s) :=
  HostOnly.refl s

theorem noteLast_hostOnly (s : State) : HostOnly s (noteLast s) := by
  unfold noteLast; split <;> exact HostOnly.refl s

theorem endCall_hostOnly (i : Nat) (r : CallResult) (next : List HostOp) (s : State) :
    HostOnly s (endCall i r next s) :=
  HostOnly.refl s

theorem settleFirst_hostOnly (s : State) : HostOnly s (settleFirst s) := by
  unfold settleFirst; split <;> exact HostOnly.refl s

theorem loseLink_hostOnly (s : State) : HostOnly s (loseLink s) := by
  unfold loseLink; split <;> exact HostOnly.refl s

theorem tearLink_hostOnly (s : State) : HostOnly s (tearLink s) := by
  unfold tearLink; split
  · exact loseLink_hostOnly s
  · exact HostOnly.refl s

theorem fireTimer_hostOnly (s : State) : HostOnly s (fireTimer s) := HostOnly.refl s

theorem HostOnly.trans {s t u : State} (h : HostOnly s t) (h' : HostOnly t u) : HostOnly s u := by
  obtain ⟨⟨a1, a2, a3, a4, a5, a6, a7, a8, a9⟩, a10, a11, a12⟩ := h
  obtain ⟨⟨b1, b2, b3, b4, b5, b6, b7, b8, b9⟩, b10, b11, b12⟩ := h'
  exact ⟨⟨b1.trans a1, b2.trans a2, b3.trans a3, b4.trans a4, b5.trans a5, b6.trans a6, b7.trans a7,
    b8.trans a8, b9.trans a9⟩, b10.trans a10, b11.trans a11, b12.trans a12⟩

theorem chooseMove_hostOnly {s s' : State} {m : Move} (h : chooseMove s = some (m, s')) :
    HostOnly s s' := by
  obtain ⟨h1, h2, h3, h4, -, -⟩ := chooseMove_block h
  exact ⟨h1, h2, h3, h4⟩

theorem loseConnection_hostOnly (handle : Nat) (s : State) : HostOnly s (loseConnection handle s) := by
  unfold loseConnection; split
  · exact loseLink_hostOnly s
  · split <;> exact HostOnly.refl s

/-- Taking a byte, the host changes its session alone. -/
theorem hostTakes_hostOnly (s : State) : HostOnly s (hostTakes s) :=
  (settleFirst_hostOnly s).trans (noteLast_hostOnly _)

/-- An operation of the session or its environment moves the host alone (44 R150). -/
theorem sessionOp_hostOnly (op : SessionOp) (i : Nat) (rest : List HostOp) (s : State) :
    HostOnly s (sessionOp op i rest s) := by
  cases op with
  | ensureConnected host port =>
    simp only [sessionOp, ensureConnected]; split <;> exact HostOnly.refl s
  | awaitConnect =>
    simp only [sessionOp, connectionEnds]; split <;> exact HostOnly.refl s
  | handshakeDone handle =>
    simp only [sessionOp, handshakeEnds]; split <;> exact HostOnly.refl s
  | validate rows =>
    simp only [sessionOp, validateRequest]; split <;> exact HostOnly.refl s
  | cancelTimer => exact HostOnly.refl s
  | settle => exact HostOnly.refl s
  | checkErr => simp only [sessionOp, checkErr]; split <;> exact HostOnly.refl s
  | startTimer ms => exact HostOnly.refl s
  | ret => exact HostOnly.refl s
  | elapse ms => exact HostOnly.refl s
  | transportError handle => exact (setAct_hostOnly i rest s).trans (loseConnection_hostOnly handle _)

/-- A `TX` move is the `TX` step of 43 R130, whatever `PKT` holds. -/
theorem txMove_eq (s : State) : txMove s = txTransfer (hostTakes s) := by
  unfold txMove
  split
  · next i hi => exact exec_wire ((encode_of_decodeTx hi).trans (by rw [hostTakes_pkt]))
  · rfl

/-- What a move can do: a reset, an accepted `WR` or `CMD` word, a `TX` step, or the host alone. -/
theorem runMove_cases (m : Move) (s : State) :
    (assertsReset m s = true ∧ ∃ s', HostOnly s s' ∧ runMove m s = .next (resetBlock s')) ∨
    (assertsReset m s = false ∧
      ((∃ j s', HostOnly s s' ∧ (∀ bytes, encode j ≠ .tx bytes) ∧ runMove m s = exec j s') ∨
       (∃ s', HostOnly s s' ∧ runMove m s = txTransfer s') ∨
       (∃ t, HostOnly s t ∧ runMove m s = .next t))) := by
  cases m with
  | fire => exact .inr ⟨rfl, .inr (.inr ⟨_, fireTimer_hostOnly s, rfl⟩)⟩
  | act i =>
    unfold runMove assertsReset
    cases ha : s.acts[i]? with
    | none => exact .inr ⟨by simp [ha], .inr (.inr ⟨s, HostOnly.refl s, by simp [ha]⟩)⟩
    | some ops =>
      match ops with
      | [] => exact .inr ⟨by simp [ha], .inr (.inr ⟨s, HostOnly.refl s, by simp [ha]⟩)⟩
      | .own op :: rest =>
        exact .inr ⟨by simp [ha], .inr (.inr ⟨_, sessionOp_hostOnly op i rest s, by simp [ha]⟩)⟩
      | .port .rst :: rest => exact .inl ⟨by simp [ha], _,
          (setAct_hostOnly i rest s).trans (tearLink_hostOnly _), by simp [ha, portOp]⟩
      | .port (.wr w) :: rest =>
        refine .inr ⟨by simp [ha], .inl ⟨decodeWr w, _, setAct_hostOnly i rest s, fun bytes => ?_, ?_⟩⟩
        · unfold decodeWr; split <;> simp [encode]
        · simp [ha, portOp]
      | .port (.cmd w) :: rest =>
        refine .inr ⟨by simp [ha], .inl ⟨decodeCmd w, _, setAct_hostOnly i rest s, fun bytes => ?_, ?_⟩⟩
        · unfold decodeCmd; simp only; split <;> simp [encode]
        · simp [ha, portOp]
      | .port .tx :: rest =>
        exact .inr ⟨by simp [ha], .inr (.inl ⟨_, (setAct_hostOnly i rest s).trans (hostTakes_hostOnly _),
          by simp [ha, portOp, txMove_eq]⟩)⟩
      | .port .takePacket :: rest =>
        refine .inr ⟨by simp [ha], .inr ?_⟩
        by_cases hb : s.busy = true
        · refine .inl ⟨hostTakes (if atLast s then setAct i rest s else s), ?_, by
            simp [ha, portOp, txMove_eq, hb]⟩
          exact HostOnly.trans (by split <;> exact HostOnly.refl s)
            (hostTakes_hostOnly _)
        · exact .inr ⟨_, setAct_hostOnly i rest s, by simp [ha, portOp, hb]⟩

/-! ### The host's clock -/

theorem loseLink_clock (s : State) : (loseLink s).session.now = s.session.now ∧
    (loseLink s).session.settleUntil = s.session.settleUntil := by
  unfold loseLink; split <;> exact ⟨rfl, rfl⟩

theorem loseConnection_clock (h : Nat) (s : State) :
    (loseConnection h s).session.now = s.session.now ∧
    (loseConnection h s).session.settleUntil = s.session.settleUntil := by
  unfold loseConnection; split
  · exact loseLink_clock s
  · split <;> exact ⟨rfl, rfl⟩

theorem tearLink_clock (s : State) : (tearLink s).session.now = s.session.now ∧
    (tearLink s).session.settleUntil = s.session.settleUntil := by
  unfold tearLink; split
  · exact loseLink_clock s
  · exact ⟨rfl, rfl⟩

@[simp] theorem loseLink_timer (s : State) : (loseLink s).session.timer = s.session.timer := by
  unfold loseLink; split <;> rfl

@[simp] theorem loseConnection_timer (h : Nat) (s : State) :
    (loseConnection h s).session.timer = s.session.timer := by
  unfold loseConnection; split
  · exact loseLink_timer s
  · split <;> rfl

@[simp] theorem tearLink_timer (s : State) : (tearLink s).session.timer = s.session.timer := by
  unfold tearLink; split
  · exact loseLink_timer s
  · rfl

@[simp] theorem hostTakes_timer (s : State) : (hostTakes s).session.timer = s.session.timer := by
  unfold hostTakes noteLast settleFirst settle; split <;> split <;> rfl

/-- Before a first byte the host's clock moves to `settleUntil`, else it stands. -/
theorem hostTakes_now {s : State} (hb : s.busy = true) : (hostTakes s).session.now =
    if s.idx = 0 then max s.session.now s.session.settleUntil else s.session.now := by
  have hn : (hostTakes s).session.now = (settleFirst s).session.now := by
    unfold hostTakes noteLast; split <;> rfl
  rw [hn]; unfold settleFirst settle
  by_cases h0 : s.idx = 0
  · simp [hb, h0]
  · rw [if_neg (fun h => h0 (by simpa using (Bool.and_eq_true_iff.1 h).2)), if_neg h0]

/-- A last byte sets `settleUntil`, any other leaves it. -/
theorem hostTakes_settleUntil {s : State} (hb : s.busy = true) : (hostTakes s).session.settleUntil =
    if atLast s then (hostTakes s).session.now + s.params.settleMs else s.session.settleUntil := by
  have h1 : (settleFirst s).busy = true := by unfold settleFirst settle; split <;> exact hb
  have h2 : atLast (settleFirst s) = atLast s := by unfold settleFirst settle; split <;> rfl
  unfold hostTakes noteLast
  simp only [h1, h2, Bool.true_and]
  cases atLast s
  · simp only [Bool.false_eq_true, if_false]; unfold settleFirst settle; split <;> rfl
  · simp

theorem hostTakes_atLast (s : State) : atLast (hostTakes s) = atLast s := by
  unfold hostTakes noteLast settleFirst settle; split <;> split <;> rfl

/-- What a `TX` transfer adds to `TXH`. -/
theorem handOut_txh (b : Byte) (s : State) : (handOut b s).txh = s.txh ++ [⟨b, atLast s⟩] := by
  unfold handOut; split <;> simp_all

/-- The chosen move is an enabled one, whatever the free value is. -/
theorem chooseMove_mem {s s' : State} {m : Move} (h : chooseMove s = some (m, s')) : m ∈ enabledMoves s := by
  unfold chooseMove at h
  split at h
  · cases h
  · next e => cases h; rw [e]; exact List.mem_singleton.2 rfl
  · next a ms _ e =>
    simp only [Option.some.injEq, Prod.mk.injEq] at h
    have hlt : Config.pick s.sched % (a :: ms).length < (a :: ms).length := Nat.mod_lt _ (Nat.succ_pos _)
    rw [e, ← h.1, List.getD_eq_getElem?_getD, List.getElem?_eq_getElem hlt]
    exact List.getElem_mem _

/-- A run goes on from what its first step answers. -/
theorem run_of_step {s t : State} {k : Nat} (h : step s = .next t) :
    Host.Core.run core (k + 1) s = Host.Core.run core k t := by
  have h' : core.step s = .next t := h
  simp only [Host.Core.run, h']

/-- Where one activity is all there is, it can move and no timer is due, the step is its next operation. -/
theorem step_only {s : State} {op : HostOp} {rest : List HostOp} (ha : s.acts = [op :: rest])
    (he : opEnabled s op = true) (ht : timerDue s = false) : step s = runMove (.act 0) s := by
  have hc : chooseMove s = some (.act 0, s) := by
    simp [chooseMove, enabledMoves, ha, ht, enabledActs, he]
  simp [step, hc]

end Sys2Proof.Laws
end

