-- ==== Sys2Proof/Tests/Slice0.lean ====
section
/-! SUPPORT. The model's own tests. Expected values are the document's and the spec's own vectors
(spec/95_test_vectors.md, S<n> and V<n> below) or the rule cited; then, for every statement that has
hypotheses, a state and operands that meet them. -/

namespace Sys2Proof.Tests

open Sys2Proof.Machine

/-! ## Helpers -/

/-- The next state of an answer. -/
def after (o : Host.Outcome State Fault Refusal) : Option State :=
  match o with
  | .next s => some s
  | _ => none

/-- The fault of an answer. -/
def faultOf (o : Host.Outcome State Fault Refusal) : Option Fault :=
  match o with
  | .fault f => some f
  | _ => none

/-- What a decoder's answer is, none where it rejects. -/
def decoded (item : PortItem) : Option Instr := (decode item).toOption

/-- Why a packet is rejected. -/
def rejected (bytes : List Byte) : Option Reject :=
  match decodeTx bytes with
  | .ok _ => none
  | .error e => some e

/-- After reset, then `LOADROW 0, "HELLO"` (V40). -/
def hello : State :=
  { State.reset with
    rowbuf := [(0, 0x48), (1, 0x45), (2, 0x4C), (3, 0x4C), (4, 0x4F)], rowlen0 := 5 }

/-- A full row 0: cells 0..34 hold `41`, `42`, ... (20_memory R30). -/
def full : State :=
  { State.reset with
    rowbuf := (List.range 35).map (fun k => (k, BitVec.ofNat 8 (0x41 + k))), rowlen0 := 35 }

/-- `PAGESEL 0x100` in flight at byte `i` (V54). -/
def sending (i : BitVec 8) : State :=
  { State.reset with pkt := [0x0E, 0x15, 0x02, 0x15, 0x15], idx := i, busy := true }

/-- The state `s` with one host activity that has this operation and those after it to do. -/
def doing (ops : List HostOp) (s : State) : State := { s with acts := [ops] }

/-- The row block of "HELLO" with a placement (V40). -/
def helloBlock (p0 p1 : Byte) : RowBlock :=
  ⟨p0, p1, 0x0D, 0x0B, 0x0B,
    List.replicate 15 0x20 ++ [0xC8, 0x45, 0x4C, 0x4C, 0x4F] ++ List.replicate 15 0x20, 0x0A, 0x0A⟩

/-- The packet of V40. -/
def v40 : List Byte :=
  [0x8F, 0xC7, 0x02, 0x38, 0x0D, 0x0B, 0x0B] ++ List.replicate 15 0x20 ++
    [0xC8, 0x45, 0x4C, 0x4C, 0x4F] ++ List.replicate 15 0x20 ++ [0x0A, 0x0A]

/-! ## Well-formedness: a good term, and one ill-formed term for each check -/

theorem test_wf_pagesel_good : (Instr.wirePageSel 0xD0 0x15 0xEA).wf = true := by decide
/-- `0x00` is no codeword (40 R70). -/
theorem test_wf_pagesel_h : (Instr.wirePageSel 0x00 0xD0 0xD0).wf = false := by decide
theorem test_wf_pagesel_t : (Instr.wirePageSel 0xD0 0x0E 0xD0).wf = false := by decide
theorem test_wf_pagesel_u : (Instr.wirePageSel 0xD0 0xD0 0x0A).wf = false := by decide

theorem test_wf_settext_good :
    (Instr.wireSetText1 (helloBlock 0x02 0x38)).wf = true ∧
    (Instr.wireSetText2 (helloBlock 0x02 0x64) (helloBlock 0x02 0x38)).wf = true ∧
    (Instr.wireSetText3 (helloBlock 0x02 0x49) (helloBlock 0x02 0x64) (helloBlock 0x02 0x38)).wf = true := by
  decide
/-- `15` stands at offset 0 only with `highPosition`, which no command sets (30 R53). -/
theorem test_wf_p0 : (Instr.wireSetText1 (helloBlock 0x15 0x38)).wf = false := by decide
/-- One row sits in the bottom slot (42 R111). -/
theorem test_wf_slot1 : (Instr.wireSetText1 (helloBlock 0x02 0x64)).wf = false := by decide
theorem test_wf_slot2 :
    (Instr.wireSetText2 (helloBlock 0x02 0x38) (helloBlock 0x02 0x38)).wf = false ∧
    (Instr.wireSetText2 (helloBlock 0x02 0x64) (helloBlock 0x02 0x64)).wf = false := by decide
theorem test_wf_slot3 :
    (Instr.wireSetText3 (helloBlock 0x02 0x64) (helloBlock 0x02 0x64) (helloBlock 0x02 0x38)).wf = false ∧
    (Instr.wireSetText3 (helloBlock 0x02 0x49) (helloBlock 0x02 0x49) (helloBlock 0x02 0x38)).wf = false ∧
    (Instr.wireSetText3 (helloBlock 0x02 0x49) (helloBlock 0x02 0x64) (helloBlock 0x02 0x49)).wf = false := by
  decide
theorem test_wf_cr : (Instr.wireSetText1 { helloBlock 0x02 0x38 with cr := 0x8D }).wf = false := by decide
theorem test_wf_vt1 : (Instr.wireSetText1 { helloBlock 0x02 0x38 with vt1 := 0x0A }).wf = false := by decide
theorem test_wf_vt2 : (Instr.wireSetText1 { helloBlock 0x02 0x38 with vt2 := 0x8B }).wf = false := by decide
theorem test_wf_text_length :
    (Instr.wireSetText1 { helloBlock 0x02 0x38 with text := List.replicate 34 0x20 }).wf = false ∧
    (Instr.wireSetText1 { helloBlock 0x02 0x38 with text := List.replicate 36 0x20 }).wf = false := by
  decide
/-- `30` has even popcount and bit 7 clear: `PAR` never gives it (41 R92, R94). -/
theorem test_wf_text_byte :
    (Instr.wireSetText1 { helloBlock 0x02 0x38 with text := List.replicate 35 0x30 }).wf = false := by
  decide
theorem test_wf_lf_value :
    (Instr.wireSetText1 { helloBlock 0x02 0x38 with lf1 := 0x0B, lf2 := 0x0B }).wf = false := by decide
theorem test_wf_lf_equal : (Instr.wireSetText1 { helloBlock 0x02 0x38 with lf2 := 0x8A }).wf = false := by
  decide
/-- `8A 8A` is legal, under `FRAME_CTRL = THROUGH_PARITY` (V44). -/
theorem test_wf_lf_parity :
    (Instr.wireSetText1 { helloBlock 0x02 0x38 with lf1 := 0x8A, lf2 := 0x8A }).wf = true := by decide

/-! ## Decoding: words written out from the encodings -/

/-- P2 step 10: `WRCH 1, 2, 0x52` is `0 01 000010 01010010`. -/
theorem test_decode_wrch : decoded (.wr 0b0_01_000010_01010010) = some (.wrch 1 2 0x52) := by decide
/-- V51: `WRLEN 0, 5` with every ignored bit of `wr_idx` set and `wr_data` 5 is `1 00 111111 00 000101`. -/
theorem test_decode_wrlen : decoded (.wr 0b1_00_111111_00_000101) = some (.wrlen 0 0xFC 5) := by decide
/-- P1 step 2: `PAGESEL 0x888` is `00 100010001000 000`. -/
theorem test_decode_pagesel : decoded (.cmd 0b00_100010001000_000) = some (.pagesel 0x888 0) := by decide
/-- P1 step 10: `SETTEXT 1` is `01 000000000000 001`. -/
theorem test_decode_settext : decoded (.cmd 0b01_000000000000_001) = some (.settext 0 1) := by decide
/-- V53: `REVEAL` is the word `0x10000`, here with its ignored fields set. -/
theorem test_decode_reveal : decoded (.cmd 0b10_000000000001_100) = some (.reveal 1 4) := by decide
/-- V53: `CLEAR` is the word `0x18000`. -/
theorem test_decode_clear : decoded (.cmd 0b11_000000000000_000) = some (.clear 0 0) := by decide
/-- The same 17 bits mean another operation on the other port (30 R58, R59). -/
theorem test_decode_by_port :
    decoded (.wr 0x18000) = some (.wrlen 2 0 0) ∧ decoded (.cmd 0x18000) = some (.clear 0 0) := by decide
/-- V36: `0E 15 02 49 5E` is page `0x123`, the nibbles in the order h, t, u. -/
theorem test_decode_wire_pagesel :
    decoded (.tx [0x0E, 0x15, 0x02, 0x49, 0x5E]) = some (.wirePageSel 0x02 0x49 0x5E) := by decide
/-- V40. -/
theorem test_decode_wire_settext1 : decoded (.tx v40) = some (.wireSetText1 (helloBlock 0x02 0x38)) := by
  decide
/-- 30 R52: `8F 8C` begins a packet of two row blocks. -/
theorem test_decode_wire_settext2 :
    decoded (.tx ([0x8F, 0x8C, 0x02, 0x64] ++ v40.drop 4 ++ v40.drop 2)) =
      some (.wireSetText2 (helloBlock 0x02 0x64) (helloBlock 0x02 0x38)) := by decide
/-- 30 R52: `8F 9B` begins a packet of three row blocks. -/
theorem test_decode_wire_settext3 :
    decoded (.tx ([0x8F, 0x9B, 0x02, 0x49] ++ v40.drop 4 ++ [0x02, 0x64] ++ v40.drop 4 ++ v40.drop 2)) =
      some (.wireSetText3 (helloBlock 0x02 0x49) (helloBlock 0x02 0x64) (helloBlock 0x02 0x38)) := by
  decide
theorem test_decode_wire_one_byte :
    decoded (.tx [0x10]) = some .wireReveal ∧ decoded (.tx [0x98]) = some .wireClear := by decide

/-- 30 R56: what begins no packet, or does not end where its format ends, is rejected by name. -/
theorem test_decode_rejects :
    rejected [] = some .emptyPacket ∧ rejected [0x11] = some (.unknownLead 0x11) ∧
    rejected [0x0E, 0x02, 0xD0, 0xD0, 0xD0] = some (.notPageSelByte1 0x02) ∧
    rejected [0x8F, 0xA1] = some (.unknownRowCode 0xA1) ∧ rejected (v40.take 43) = some .truncated ∧
    rejected (v40 ++ [0x0A]) = some .trailingBytes ∧ rejected [0x10, 0x98] = some .trailingBytes := by
  decide

/-! ## The opcode table's words -/

/-- The table's words, read as log 4 and log 5 say. -/
theorem test_table_words :
    decodeTableWord 17 0x08000 = some (.settext 0 0) ∧ decodeTableWord 24 0x18000 = some (.clear 0 0) ∧
    decodeTableWord 17 0x30005 = some (.wrlen 0 0 5) ∧
    decodeTableWord 40 0x0E15D0D0D0 = some (.wirePageSel 0xD0 0xD0 0xD0) ∧
    decodeTableWord 8 0x10 = some .wireReveal ∧ decodeTableWord 8 0x98 = some .wireClear := by decide

/-- `8F C7` alone: the 42 bytes above it are 0. -/
theorem test_table_settext1 :
    decodeTableWord 16 0x8FC7 =
      some (.wireSetText1 ⟨0, 0, 0, 0, 0, List.replicate 35 0, 0, 0⟩) := by decide

/-- The very next step runs the placed instruction: from reset, `PAGESEL 0x888` and the first `TX` transfer
of its packet. -/
theorem test_fetch_word :
    (after (step (State.reset.withFetchWord 17 0x04440))).map (·.pkt) =
      some [0x0E, 0x15, 0xD0, 0xD0, 0xD0] ∧
    (after (step (State.reset.withFetchWord 40 0x0E15D0D0D0))).map (·.txh) =
      some [⟨0x0E, false⟩] ∧
    (after (step (State.reset.withFetchWord 8 0x98))).map (·.txh) = some [⟨0x98, true⟩] := by decide

/-! ## Writes (V50, V51) -/

theorem test_wrch : after (exec (.wrch 2 34 0x41) State.reset) =
    some { State.reset with rowbuf := [(64 * 2 + 34, 0x41)] } := by decide
/-- V50: rows 3 and cells from 35 on do not exist. -/
theorem test_wrch_dropped :
    after (exec (.wrch 3 0 0x41) State.reset) = some State.reset ∧
    after (exec (.wrch 0 35 0x41) State.reset) = some State.reset ∧
    after (exec (.wrch 0 63 0x41) State.reset) = some State.reset := by decide
theorem test_wrlen : (after (exec (decodeWr 0x100C5) State.reset)).map (·.rowlen0) = some 5 ∧
    (after (exec (decodeWr 0x100FF) State.reset)).map (·.rowlen0) = some 63 := by decide
theorem test_wrlen_dropped : after (exec (decodeWr 0x1C005) State.reset) = some State.reset := by decide

/-! ## Commands -/

/-- V33, V36, V35. -/
theorem test_pagesel :
    (after (exec (.pagesel 0x888 0) State.reset)).map (·.pkt) = some [0x0E, 0x15, 0xD0, 0xD0, 0xD0] ∧
    (after (exec (.pagesel 0x1AF 0) State.reset)).map (·.pkt) = some [0x0E, 0x15, 0x02, 0x8C, 0xEA] ∧
    (after (exec (.pagesel 0xFFF 7) State.reset)).map (·.pkt) = some [0x0E, 0x15, 0xEA, 0xEA, 0xEA] := by
  decide
/-- `PAGE_WIDTH` = 8: the page is the field's low eight bits (log 8). -/
theorem test_page_width :
    (after (exec (.pagesel 0x1AF 0) { State.reset with params := { defaultParams with pageWidth := 8 } })).map
      (·.pkt) = some [0x0E, 0x15, 0x15, 0x8C, 0xEA] := by decide
/-- V56: an accepted command overwrites `ERR` and its code is recorded. -/
theorem test_reveal_clears_err :
    (after (exec (.reveal 0 0) { State.reset with err := 0b01, errs := [0b01] })).map
      (fun s => (s.pkt, s.err, s.errs)) = some ([0x10], 0b00, [0b01, 0b00]) := by decide
/-- 43 R129: `CLEAR` clears no buffer of the block. -/
theorem test_clear : (after (exec (.clear 0 0) hello)).map (fun s => (s.pkt, s.rowbuf, s.rowlen0)) =
    some ([0x98], hello.rowbuf, 5) := by decide
/-- V40. -/
theorem test_settext : (after (exec (.settext 0 1) hello)).map (·.pkt) = some v40 := by decide
/-- V47: `ERR` after `SETTEXT 4`, `SETTEXT 0`, and `SETTEXT 5` and `SETTEXT 1` with `ROWLEN[0] = 40`. -/
theorem test_settext_errors :
    (after (exec (.settext 0 4) State.reset)).map (·.err) = some 0b01 ∧
    (after (exec (.settext 0 0) State.reset)).map (·.err) = some 0b11 ∧
    (after (exec (.settext 0 5) { State.reset with rowlen0 := 40 })).map (·.err) = some 0b01 ∧
    (after (exec (.settext 0 1) { State.reset with rowlen0 := 40 })).map (·.err) = some 0b10 := by decide
/-- V47: a too-long row that is not of the request does not fail it; 35 is allowed. -/
theorem test_settext_other_row :
    (after (exec (.settext 0 2) { State.reset with rowlen2 := 40 })).map (·.pkt.length) = some 86 ∧
    (after (exec (.settext 0 1) full)).map (·.err) = some 0b00 := by decide
/-- V49: the cell that was never written, and no other, stops the model. -/
theorem test_settext_unwritten :
    faultOf (exec (.settext 0 1) { State.reset with rowlen0 := 1 }) = some (.unwrittenCell 0 0) ∧
    faultOf (exec (.settext 0 1) { State.reset with rowbuf := [(0, 0x41)], rowlen0 := 2 }) =
      some (.unwrittenCell 0 1) ∧
    faultOf (exec (.settext 0 1) { State.reset with rowlen1 := 3 }) = none := by decide
/-- V44: under `FRAME_CTRL = THROUGH_PARITY` only the two last bytes of a row differ. -/
theorem test_settext_through_parity :
    (after (exec (.settext 0 1) { hello with params := { defaultParams with frameCtrl := .throughParity } })).map
      (·.pkt) = some (v40.take 42 ++ [0x8A, 0x8A]) := by decide
/-- V45: "Crème" under both parity modes. -/
theorem test_parity_modes :
    encText defaultParams [0x43, 0x72, 0xE8, 0x6D, 0x65] = [0x43, 0xF2, 0xE8, 0x6D, 0xE5] ∧
    encText { defaultParams with parityMode := .forceOdd } [0x43, 0x72, 0xE8, 0x6D, 0x65] =
      [0x43, 0xF2, 0x68, 0x6D, 0xE5] := by decide
/-- V13, V15: no chaining in `REMAP`; the degree sign by its parameter. -/
theorem test_remap :
    encText defaultParams [0xC4, 0x5B, 0xB0] = [0x5B, 0xA8, 0xE0] ∧
    encText { defaultParams with remapDegree := 0xBA } [0xB0] = [0xBA] ∧
    encText { defaultParams with textCode := { latin1 with capAuml := 0x8E } } [0x8E, 0xC4] = [0x5B, 0xC4] := by
  decide
/-- V42 row 1, "ÄÖÜ äöü ß § °" encoded. -/
theorem test_german :
    encText defaultParams [0xC4, 0xD6, 0xDC, 0x20, 0xE4, 0xF6, 0xFC, 0x20, 0xDF, 0x20, 0xA7, 0x20, 0xB0] =
      [0x5B, 0xDC, 0x5D, 0x20, 0xFB, 0x7C, 0xFD, 0x20, 0xFE, 0x20, 0x40, 0x20, 0xE0] := by decide
/-- V25: left pad for lengths 0, 1, 5, 34, 35; V31: the placement high byte with `highPosition`. -/
theorem test_pad_place :
    [0, 1, 5, 34, 35].map leftPad = [18, 17, 15, 1, 0] ∧ (place 0 3 true).toOption = some (0x15, 0x49) := by
  decide

/-! ## The `TX` step (V54, V55) and the host -/

theorem test_wire_pagesel_first : (after (exec (.wirePageSel 0x02 0x15 0x15) (sending 0))).map
    (fun s => (s.txh, s.idx, s.busy)) = some ([⟨0x0E, false⟩], 1, true) := by decide
theorem test_wire_pagesel_last : (after (exec (.wirePageSel 0x02 0x15 0x15) (sending 4))).map
    (fun s => (s.txh, s.idx, s.busy)) = some ([⟨0x15, true⟩], 0, false) := by decide
theorem test_wire_settext1_last : (after (exec (.wireSetText1 (helloBlock 0x02 0x38))
    { State.reset with pkt := v40, idx := 43, busy := true })).map (fun s => (s.txh, s.busy)) =
    some ([⟨0x0A, true⟩], false) := by decide
/-- Any other packet waits (log 6). -/
theorem test_wire_waits : after (exec .wireClear (sending 0)) = some (sending 0) ∧
    after (exec .wireReveal State.reset) = some State.reset := by decide
/-- V55: `CLEAR` presented while a packet is in flight is not accepted. -/
theorem test_hold : after (step (doing [.port (.cmd 0x18000)] (sending 2))) =
    some (doing [.port (.cmd 0x18000)] (sending 2)) := by decide
/-- V57: reset in mid-packet. -/
theorem test_rst : (after (step (doing [.port .rst] { sending 3 with rowlen0 := 5, txh := [⟨0x0E, false⟩] }))).map
    (fun s => (s.busy, s.idx, s.pkt, s.rowlen0, s.txh)) = some (false, 0, [], 0, [⟨0x0E, false⟩]) := by
  decide
/-- P5: on a new connection the handshake page follows at once, then the call's own operations. -/
theorem test_connect : (after (step { doing [.own .awaitConnect, .own .ret] State.reset with
      session := { Session.initial with conn := .connecting, dials := [true] } })).map (·.acts) =
    some [[.own .settle, .port (.cmd 0x04440), .port .takePacket, .own (.handshakeDone 0), .own .ret]] := by
  decide
/-- 44 R158: a connection lost during the handshake fails the call, which then sends nothing more. -/
theorem test_handshake_lost : (after (step { doing [.own (.handshakeDone 0), .port (.cmd 0x10000), .own .ret]
      State.reset with session := { Session.initial with lost := [0] } })).map
      (fun s => (s.acts, s.session.results)) = some ([[]], [.connectFailed]) := by decide
/-- 44 R151, R158: an error on a connection that a later one has superseded leaves the session writable; one on
the session's own does not. -/
theorem test_superseded : [0, 1].map (fun h => (after (step { doing [.own (.transportError h)] State.reset with
      session := { Session.initial with conn := .connected, handle := some 1, opened := 2 } })).map
      (fun s => (s.session.conn, s.session.lost))) =
    [some (.connected, [0]), some (.disconnected, [1])] := by decide
/-- 44 R155: whoever sent the packet before, the first byte of the next one waits for the settle delay. -/
theorem test_settle_first : (after (step { doing [.port .tx] (sending 0) with
      session := { Session.initial with now := 5, settleUntil := 45 } })).map (·.session.now) = some 45 ∧
    (after (step { doing [.port .tx] (sending 1) with
      session := { Session.initial with now := 5, settleUntil := 45 } })).map (·.session.now) = some 5 := by
  decide
/-- 70 R191: after a reset in mid-packet the host's next call opens and handshakes again. -/
theorem test_rst_link : (after (step { doing [.port .rst] (sending 3) with
      session := { Session.initial with conn := .connected } })).map (·.session.conn) = some .disconnected ∧
    (after (step { doing [.port .rst] State.reset with
      session := { Session.initial with conn := .connected } })).map (·.session.conn) = some .connected := by
  decide
/-- P5: a caller that awaits its calls goes on with the next one. -/
theorem test_next_call : (after (step (doing (.own .ret :: apiClear "h" 1) State.reset))).map (·.acts) =
    some [apiClear "h" 1] := by decide
/-- 70 R200: not over while `BUSY = 1`, nor while the host has a transfer left to present; what presents none
does not count. -/
theorem test_run_over : runOver State.reset = true ∧ runOver (sending 4) = false ∧
    runOver (doing [.port (.wr 0)] State.reset) = false ∧
    runOver (doing [.own (.elapse 5), .own .ret, .port .rst, .port .tx] State.reset) = true ∧
    runOver (doing [.own (.ensureConnected "h" 1)] State.reset) = false ∧
    runOver (doing [] State.reset) = true := by decide
/-- P5: a due timer sends one `CLEAR`, once. -/
theorem test_timer : (after (step { State.reset with
      session := { Session.initial with timer := some 2780, now := 2780 } })).map
      (fun s => (s.acts, s.session.timer)) =
    some ([[.own .settle, .port (.cmd 0x18000), .port .takePacket]], none) := by decide
/-- 44 R161: the host that checks first answers with the block's own code and presents nothing. -/
theorem test_validate : (after (step (doing [.own (.validate [List.replicate 36 0x41]), .port (.cmd 0x08001)]
      State.reset))).map (fun s => (s.acts, s.session.results)) = some ([[]], [.rejected 0b10]) := by decide
/-- 30 R62 (a): `LOADROW 0, "HI"` is `WRCH 0,0,48`, `WRCH 0,1,49`, `WRLEN 0,2`. -/
theorem test_loadrow : loadRow 0 [0x48, 0x49] =
    [.port (.wr 0x00048), .port (.wr 0x00149), .port (.wr 0x10002)] := by decide

/-! ## Witnesses: for each statement with hypotheses, terms that meet them all together -/

/-- `PageselBuildsItsPacket`, `PageselTakesPageWidthBits`: the port's whole field, and two narrower pages. -/
theorem witness_page_width : (State.reset.busy = false ∧ 12 ≤ State.reset.params.pageWidth) ∧
    ∀ wq ∈ [(0, (0x000 : BitVec 12)), (8, 0x0AF), (11, 0x1AF)],
      let s := { State.reset with params := { defaultParams with pageWidth := wq.1 } }
      s.busy = false ∧ s.params.pageWidth < 12 ∧
      wq.2.toNat = (0x1AF : BitVec 12).toNat % 2 ^ s.params.pageWidth := by decide

/-- The block with `full`'s row in rows 0 and 2 and an empty row 1, ready for three rows. -/
def three : State :=
  { full with
    rowbuf := full.rowbuf ++ (List.range 35).map (fun k => (128 + k, BitVec.ofNat 8 (0x41 + k)))
    rowlen2 := 35 }

/-- One host activity presents `CLEAR`, another `WRLEN 0, 0`: two moves are enabled. -/
def twoActs : State := { State.reset with acts := [[.port (.cmd 0x18000)], [.port (.wr 0x10000)]] }

/-- Statements whose only hypothesis is `BUSY = 0`, and the boundary values of `WRCH`'s two clauses. -/
theorem witness_idle :
    State.reset.busy = false ∧ ((2 : BitVec 2).toNat ≤ 2 ∧ (34 : BitVec 6).toNat ≤ 34) ∧
    ¬ ((3 : BitVec 2).toNat ≤ 2 ∧ (0 : BitVec 6).toNat ≤ 34) ∧
    ¬ ((2 : BitVec 2).toNat ≤ 2 ∧ (35 : BitVec 6).toNat ≤ 34) := by decide

theorem witness_ready_one : hello.busy = false ∧ RequestReady hello 1 := by
  unfold RequestReady RowsFit RowsWritten; decide
/-- A row may be empty: nothing is read. -/
theorem witness_ready_three_empty : RequestReady State.reset 3 := by
  unfold RequestReady RowsFit RowsWritten; decide
theorem witness_ready_three : three.busy = false ∧ RequestReady three 3 := by
  unfold RequestReady RowsFit RowsWritten; decide
theorem witness_ready_answers : (after (exec (.settext 0 1) hello)).isSome = true ∧
    (after (exec (.settext 0 3) three)).isSome = true := by decide

/-- `SettextBuildsItsPacket`: the text of the one row. -/
theorem witness_builds : RowsFit hello 1 ∧
    ∀ r : Fin 3, r.val < (1 : BitVec 3).toNat →
      ([0x48, 0x45, 0x4C, 0x4C, 0x4F] : List Byte).length = (rowLen hello r).toNat ∧
      ∀ k (h : k < ([0x48, 0x45, 0x4C, 0x4C, 0x4F] : List Byte).length),
        memRead hello.rowbuf (cellAddr r.val k) = some ([0x48, 0x45, 0x4C, 0x4C, 0x4F] : List Byte)[k] := by
  unfold RowsFit; decide

/-- `RowBlockLayout` and `PadCentresEveryRow` at their ends. -/
theorem witness_layout : 0 < 1 ∧ 2 < 3 ∧ 3 ≤ 3 ∧ ([] : List Byte).length ≤ 35 ∧
    (List.replicate 35 (0x41 : Byte)).length ≤ 35 := by decide

/-- `SettextFramesEachRow`: the first and the last row of three. -/
theorem witness_frames : 0 < (3 : BitVec 3).toNat ∧ 2 < (3 : BitVec 3).toNat := by decide

/-- `SettextPlacesEachCharacter`: the last cell of a full row holds a character; a row of five has a pad
byte left of the text and one right of it. -/
theorem witness_places :
    (34 < (rowLen three 2).toNat ∧ memRead three.rowbuf (cellAddr 2 34) = some 0x63) ∧
    (14 < 35 ∧ 14 < (35 - (rowLen hello 0).toNat + 1) / 2) ∧
    (20 < 35 ∧ (35 - (rowLen hello 0).toNat + 1) / 2 + (rowLen hello 0).toNat ≤ 20) := by decide

theorem witness_too_many : 3 < (4 : BitVec 3).toNat ∧ 3 < (7 : BitVec 3).toNat := by decide
theorem witness_zero_rows : (0 : BitVec 3).toNat = 0 := by decide

/-- `SettextRejectsLongRow`: a row of 36 in the request; a row of 36 beyond it. -/
theorem witness_long_row : ¬ RowsFit { State.reset with rowlen2 := 36 } 3 ∧
    RowsFit { State.reset with rowlen2 := 36 } 2 ∧
    (after (exec (.settext 0 2) { State.reset with rowlen2 := 36 })).isSome = true := by
  unfold RowsFit; decide

/-- `SettextFaultsOnUnwrittenCell`: row 0 is written, row 1 lacks its cell 1. -/
theorem witness_unwritten :
    let s := { hello with rowbuf := hello.rowbuf ++ [(64, 0x41)], rowlen1 := 2 }
    s.busy = false ∧ (2 : BitVec 3).toNat ≤ 3 ∧ RowsFit s 2 ∧ (1 : Fin 3).val < (2 : BitVec 3).toNat ∧
    1 < (rowLen s 1).toNat ∧ memRead s.rowbuf (cellAddr 1 1) = none ∧
    ∀ q : Fin 3, ∀ j < (rowLen s q).toNat, (q < 1 ∨ (q = 1 ∧ j < 1)) →
      (memRead s.rowbuf (cellAddr q.val j)).isSome = true := by
  unfold RowsFit; decide

/-- `SettextReadsOnlyItsRows`: another row, old text beyond the length, another history. -/
theorem witness_reads_only :
    let s' := { hello with
      rowbuf := hello.rowbuf ++ [(5, 0x21), (64, 0x41)], rowlen1 := 63, txh := [⟨0x98, true⟩], err := 0b01 }
    s'.busy = false ∧ s'.params = hello.params ∧
    (∀ r : Fin 3, r.val < (1 : BitVec 3).toNat → rowLen s' r = rowLen hello r ∧
      ∀ k < (rowLen hello r).toNat,
        memRead s'.rowbuf (cellAddr r.val k) = memRead hello.rowbuf (cellAddr r.val k)) ∧
    (after (exec (.settext 0 1) hello)).isSome = true := by decide

/-- The command statements: an accepted command, a failing one, and one that waits. -/
theorem witness_commands :
    commandOpr (.settext 5 4) = some ⟨0b01, 5, 4⟩ ∧ commandOpr (.pagesel 5 4) = some ⟨0b00, 5, 4⟩ ∧
    (after (exec (.settext 5 4) State.reset)).isSome = true ∧
    (after (exec (.pagesel 5 4) State.reset)).isSome = true ∧
    (after (exec (.pagesel 5 4) (sending 0))).isSome = true := by decide
/-- `CommandsLatchOperandsAndErr`: each of its results at an end of its range. -/
theorem witness_command_results :
    3 < (4 : BitVec 3).toNat ∧ (0 : BitVec 3).toNat = 0 ∧ (1 ≤ (3 : BitVec 3).toNat ∧ (3 : BitVec 3).toNat ≤ 3) ∧
    ¬ RowsFit { State.reset with rowlen2 := 36 } 3 ∧ RowsFit { State.reset with rowlen2 := 35 } 3 ∧
    (after (exec (.settext 0 0) State.reset)).isSome = true ∧
    (after (exec (.settext 0 3) { State.reset with rowlen2 := 36 })).isSome = true ∧
    (after (exec (.settext 0 3) three)).isSome = true := by
  unfold RowsFit; decide

/-- The statements about instructions that are no command, or no write. -/
theorem witness_no_command :
    commandOpr (.wrch 0 0 0x41) = none ∧ (after (exec (.wrch 0 0 0x41) State.reset)).isSome = true ∧
    commandOpr (.wirePageSel 0x02 0x15 0x15) = none ∧
    (after (exec (.wirePageSel 0x02 0x15 0x15) (sending 0))).isSome = true := by decide

theorem witness_no_write : (∀ r k b, Instr.clear 0 0 ≠ .wrch r k b) ∧
    (∀ r x n, Instr.clear 0 0 ≠ .wrlen r x n) ∧ (after (exec (.clear 0 0) State.reset)).isSome = true := by
  refine ⟨?_, ?_, by decide⟩ <;> intros <;> simp

theorem witness_wait : (∀ bytes, encode (.wrch 0 0 0x41) ≠ .tx bytes) ∧
    (∀ bytes, encode (.clear 0 0) ≠ .tx bytes) ∧ (sending 0).busy = true := by
  refine ⟨?_, ?_, rfl⟩ <;> intros <;> simp [encode]

/-- The six wire rows, each with its packet in flight at its last byte; and W-PS before its last. -/
theorem witness_wire_rows :
    encode (.wirePageSel 0x02 0x15 0x15) = .tx (sending 4).pkt ∧ (sending 4).busy = true ∧
    (sending 4).pkt[(sending 4).idx.toNat]? = some 0x15 ∧
    (sending 3).pkt[(sending 3).idx.toNat]? = some 0x15 ∧
    encode .wireReveal = .tx [0x10] ∧ encode .wireClear = .tx [0x98] ∧
    encode (.wireSetText1 (helloBlock 0x02 0x38)) = .tx v40 ∧ v40[(43 : BitVec 8).toNat]? = some 0x0A ∧
    (wireBytes (.wireSetText2 (helloBlock 0x02 0x64) (helloBlock 0x02 0x38)))[(85 : BitVec 8).toNat]? =
      some 0x0A ∧
    (wireBytes (.wireSetText3 (helloBlock 0x02 0x49) (helloBlock 0x02 0x64)
      (helloBlock 0x02 0x38)))[(127 : BitVec 8).toNat]? = some 0x0A := by decide

/-- `WireRowsWaitForTheirPacket`: nothing on `TX`; another packet on `TX`. -/
theorem witness_wire_waits : encode .wireClear = .tx [0x98] ∧ State.reset.busy = false ∧
    (sending 0).pkt ≠ [0x98] := by decide

theorem witness_leaves_whole :
    let s := doing [.port .takePacket] (sending 1)
    s.acts = [[.port .takePacket]] ∧ s.session.timer = none ∧ s.busy = true ∧
    s.idx.toNat < s.pkt.length ∧ s.pkt.length ≤ 128 := by decide

theorem witness_presented_wr :
    let s := doing [.port (.wr 0x10005), .own .ret] State.reset
    chooseMove s = some (.act 0, s) ∧ s.acts[0]? = some (.port (.wr 0x10005) :: [.own .ret]) ∧
    decoded (.wr 0x10005) = some (.wrlen 0 0 5) := by decide
theorem witness_presented_cmd :
    let s := doing [.port (.cmd 0x18000)] State.reset
    chooseMove s = some (.act 0, s) ∧ s.acts[0]? = some [.port (.cmd 0x18000)] ∧
    decoded (.cmd 0x18000) = some (.clear 0 0) := by decide

theorem witness_packet_tx :
    let s := doing [.port .tx] (sending 4)
    chooseMove s = some (.act 0, s) ∧ decoded (.tx s.pkt) = some (.wirePageSel 0x02 0x15 0x15) ∧
    s.acts[0]? = some [.port .tx] ∧ s.busy = true ∧ s.pkt[s.idx.toNat]? = some 0x15 ∧
    s.idx.toNat = s.pkt.length - 1 := by decide
theorem witness_packet_take :
    let s := doing [.port .takePacket] (sending 0)
    chooseMove s = some (.act 0, s) ∧ decoded (.tx s.pkt) = some (.wirePageSel 0x02 0x15 0x15) ∧
    s.acts[0]? = some [.port .takePacket] ∧ s.busy = true ∧ s.pkt[s.idx.toNat]? = some 0x0E ∧
    s.idx.toNat ≠ s.pkt.length - 1 := by decide
/-- `TxStepHandsOutOneByte` before the last byte. -/
theorem witness_tx_step :
    let s := doing [.port .tx] (sending 3)
    chooseMove s = some (.act 0, s) ∧ s.acts[0]? = some [.port .tx] ∧ s.busy = true ∧
    s.pkt[s.idx.toNat]? = some 0x15 ∧ s.idx.toNat ≠ s.pkt.length - 1 := by decide

/-- A reset in mid-packet on an open connection, and one of an idle block. -/
theorem witness_rst :
    let s := { doing [.port .rst] (sending 3) with session := { Session.initial with conn := .connected } }
    let u := doing [.port .rst] State.reset
    (chooseMove s = some (.act 0, s) ∧ s.acts[0]? = some [.port .rst] ∧ s.busy = true ∧
      s.session.conn = .connected) ∧
    chooseMove u = some (.act 0, u) ∧ u.acts[0]? = some [.port .rst] ∧ u.busy = false := by decide

theorem witness_held :
    let s := { sending 2 with acts := [[.port (.cmd 0x18000)], [.port (.wr 0x10000)]] }
    s.busy = true ∧ s.session.timer = none ∧
    ∀ ops ∈ s.acts, ∀ op rest, ops = op :: rest →
      (∃ w, op = .port (.wr w)) ∨ (∃ w, op = .port (.cmd w)) := by
  refine ⟨rfl, rfl, ?_⟩
  intro ops h op rest e
  simp only [List.mem_cons, List.not_mem_nil, or_false] at h
  rcases h with rfl | rfl <;> cases e
  · exact .inr ⟨_, rfl⟩
  · exact .inl ⟨_, rfl⟩

theorem witness_under_packet :
    let s := doing [.port .tx] (sending 2)
    s.busy = true ∧ stepResets s = false ∧ (after (step s)).isSome = true := by decide

/-- The statements about any step: a step that answers a next state, and one with two enabled moves. -/
theorem witness_step : (after (step (doing [.port (.cmd 0x04440)] State.reset))).isSome = true ∧
    enabledMoves twoActs = [.act 0, .act 1] := by decide

/-- The invariant holds of a state with a packet in flight, and a step is possible there. -/
theorem witness_inv : BlockInv (doing [.port .tx] (sending 2)) where
  memory := by decide
  packet := by decide
  offered := by decide
  idle := by decide
  failed := by decide

theorem witness_whole : WholePackets (doing [.port .tx] { sending 1 with txh := [⟨0x98, true⟩, ⟨0x0E, false⟩] }) :=
  ⟨[[0x98]], by decide, by decide⟩
theorem witness_whole_inv : BlockInv (doing [.port .tx] { sending 1 with txh := [⟨0x98, true⟩, ⟨0x0E, false⟩] }) where
  memory := by decide
  packet := by decide
  offered := by decide
  idle := by decide
  failed := by decide
theorem witness_whole_step :
    let s := doing [.port .tx] { sending 1 with txh := [⟨0x98, true⟩, ⟨0x0E, false⟩] }
    (s.busy = true → stepResets s = false) ∧ (after (step s)).isSome = true := by decide

/-- `OnlyUnwrittenCellsFault`: V49 as a step. -/
theorem witness_fault_inv : BlockInv (doing [.port (.cmd 0x08001)] { State.reset with rowlen0 := 1 }) where
  memory := by decide
  packet := by decide
  offered := by decide
  idle := by decide
  failed := by decide
theorem witness_fault : faultOf (step (doing [.port (.cmd 0x08001)] { State.reset with rowlen0 := 1 })) =
    some (.unwrittenCell 0 0) := by decide

/-- `PlaceAnswersSixPairs`: its two clauses where they meet; `RemapCellsAndIdentity`: a byte outside the
domain, and a text code that gives the characters different codes. -/
theorem witness_units : (2 < 3 ∧ 3 ≤ 3) ∧ ¬ (3 < 3 ∧ 3 ≤ 3) ∧ ¬ (0 < 4 ∧ 4 ≤ 3) ∧ ¬ (0 < 0 ∧ 0 ≤ 3) ∧
    (0xC1 : Byte) ∉ [(0x40 : Byte), 0x5B, 0x5C, 0x5D, 0x60, 0x7B, 0x7C, 0x7D, 0x7E, 0xA7, 0xB0, 0xC0,
      0xC3, 0xC4, 0xC5, 0xC6, 0xD6, 0xDC, 0xDF, 0xE4, 0xF6, 0xFC] ∧
    (8 : BitVec 4) ≠ 9 ∧ defaultParams.textCode = latin1 ∧
    ([0x40, 0x60, 0x5B, 0x5C, 0x5D, 0x7B, 0x7C, 0x7D, 0x7E, latin1.sectionSign, latin1.capAuml, latin1.capOuml,
      latin1.capUuml, latin1.smallAuml, latin1.smallOuml, latin1.smallUuml, latin1.eszett, latin1.degreeSign,
      latin1.capAgrave, latin1.capAtilde, latin1.capAring, latin1.capAe] : List Byte).Nodup := by decide

/-- `SessionLeavesBlockAlone`: an operation of the session, and a timer that fires. -/
theorem witness_session_op :
    let s := doing [.own .settle] (sending 1)
    chooseMove s = some (.act 0, s) ∧ s.acts[0]? = some [.own .settle] := by decide
theorem witness_session_fire :
    let s := { State.reset with session := { Session.initial with timer := some 0 } }
    chooseMove s = some (.fire, s) ∧ (after (runMove .fire s)).isSome = true := by decide

/-- `OneAutoClearPerTimer`: a step that starts a timer, and one that cancels it. -/
theorem witness_timer :
    (after (step (doing [.own (.startTimer 7)] State.reset))).map (·.session.timer) = some (some 7) ∧
    (after (step { doing [.own .cancelTimer] State.reset with
      session := { Session.initial with timer := some 7 } })).map (·.session.timer) = some none := by decide

/-- `LoadRowLoadsItsRow`: an empty text, a full row, and texts longer than the row and than the register. -/
theorem witness_loadrow : ∀ n ∈ [0, 35, 36, 63, 100],
    let s := doing (loadRow (BitVec.ofNat 2 (2 : Fin 3).val) (List.replicate n 0x41)) hello
    s.busy = false ∧ s.session.timer = none ∧
    s.acts = [loadRow (BitVec.ofNat 2 (2 : Fin 3).val) (List.replicate n 0x41)] := by decide

/-- `RejectedRequestSendsNothing`: each of the three errors, and a request that is none of them. -/
theorem witness_rejected :
    State.reset.params.hostChecksFirst = true ∧ 0 < (doing [.own .ret] State.reset).acts.length ∧
    3 < (List.replicate 4 [(0x41 : Byte)]).length ∧ ([] : List (List Byte)).length = 0 ∧
    (let rows : List (List Byte) := [[], List.replicate 36 0x41]
     1 ≤ rows.length ∧ rows.length ≤ 3 ∧ ∃ t ∈ rows, 35 < t.length) ∧
    (let rows : List (List Byte) := [[], [], List.replicate 35 0x41]
     1 ≤ rows.length ∧ rows.length ≤ 3 ∧ ∀ t ∈ rows, t.length ≤ 35) := by decide

/-- `HandshakeFollowsOpening`, `FailedOpeningEndsTheCall`: each clause, a handshake that fails and a
connection that another call has opened among them. -/
theorem witness_opening :
    let s := doing [.own .awaitConnect] State.reset
    0 < s.acts.length ∧ s.session.conn ≠ .connected ∧
    ({ s with session := { s.session with conn := .connected, handle := some 1 } }).session.conn = .connected ∧
    ({ s with session := { s.session with conn := .connected, dials := [false] } }).session.dials = false :: [] ∧
    ({ s with session := { s.session with dials := [true] } }).session.dials = true :: [] ∧
    ({ s with session := { s.session with dials := [false] } }).session.dials = false :: [] ∧
    0 ∉ s.session.lost ∧ 0 ∈ ({ s.session with lost := [0] }).lost := by decide
/-- `FailedOpeningEndsTheCall`: an error on the session's connection, on a superseded one, on one never opened,
and on one lost before. -/
theorem witness_loss :
    let x : Session := { Session.initial with conn := .connected, handle := some 2, opened := 3, lost := [0] }
    (x.handle = some 2 ∧ x.conn = .connected) ∧ (x.handle ≠ some 1 ∧ 1 < x.opened ∧ 1 ∉ x.lost) ∧
    (x.handle ≠ some 3 ∧ x.opened ≤ 3) ∧ (x.handle ≠ some 0 ∧ 0 ∈ x.lost) := by decide

/-- `SettleDelayIsKept`: a step that takes a first byte, one that takes a last byte, one that takes both, and
one that takes none. -/
theorem witness_settle :
    ((after (step (doing [.port .tx] (sending 0)))).map (·.txh) = some [⟨0x0E, false⟩] ∧ (sending 0).idx = 0) ∧
    (after (step (doing [.port .tx] (sending 4)))).map (·.txh) = some [⟨0x15, true⟩] ∧
    (after (step (doing [.port .tx] { sending 0 with pkt := [0x98] }))).map (·.txh) = some [⟨0x98, true⟩] ∧
    (after (step State.reset)).map (·.txh) = some [] := by decide

/-- On an open connection, with these operations to do. -/
def online (ops : List HostOp) : State :=
  { doing ops State.reset with session := { Session.initial with conn := .connected } }

/-- `ApiSetTextSendsItsPackets`: one row untimed, three rows with the duration omitted, one of them full. -/
theorem witness_api_settext : ∀ rd ∈ [([[]], some 0), ([[0x41], [], List.replicate 35 0x41], none)],
    let s := online (apiSetText "h" 1 rd.1 rd.2 ++ apiClear "h" 1)
    s.busy = false ∧ s.session.conn = .connected ∧ timerDue s = false ∧
    s.acts = [apiSetText "h" 1 rd.1 rd.2 ++ apiClear "h" 1] ∧
    1 ≤ rd.1.length ∧ rd.1.length ≤ 3 ∧ ∀ row ∈ rd.1, row.length ≤ 35 := by decide

/-- `ApiRevealAndClearSendOneByte`: an open connection with a timer pending, and a new one. -/
theorem witness_api_reveal :
    let s := { online (apiReveal "h" 1 ++ []) with
      session := { Session.initial with conn := .connected, timer := some 41 } }
    let u := { doing (apiClear "h" 1 ++ []) State.reset with session := { Session.initial with dials := [true] } }
    (s.busy = false ∧ s.acts = [apiReveal "h" 1 ++ []] ∧ s.session.timer = some 41 ∧
      max s.session.now s.session.settleUntil + s.params.settleMs < 41 ∧ s.session.conn = .connected) ∧
    u.busy = false ∧ u.acts = [apiClear "h" 1 ++ []] ∧ u.session.timer = none ∧ u.session.conn ≠ .connected ∧
    u.session.dials = true :: [] := by decide

/-- `AwaitedCallsFollow`: the part of a call before its `ret`. -/
theorem witness_awaited : 0 < (doing [.own .ret] State.reset).acts.length ∧
    ∀ op ∈ send revealWord, op ≠ .own .ret := by decide

/-- `RunOverRests`: a run that is over with nothing left, a block that is busy, a run that is over with a return
left. -/
theorem witness_run_over : hostDone State.reset = true ∧ (sending 0).busy = true ∧
    (let s := doing [.own .ret] State.reset
     runOver s = true ∧ timerDue s = false ∧ (after (step s)).map (·.session.conn) = some s.session.conn) := by
  decide

end Sys2Proof.Tests
end

section
/-! The block's state after reset (10_state R21). -/

namespace Sys2Proof.Proofs.ResetState
open Sys2Proof.Machine

/-- An empty memory lists no cell, so every address reads as "no value" (10_state R11). -/
@[simp] theorem memRead_nil (a : Nat) : memRead [] a = none := rfl

theorem memRead_reset (a : Nat) : memRead State.reset.rowbuf a = none := memRead_nil a

theorem rowLen_reset (r : Fin 3) : rowLen State.reset r = 0 := by
  match r with
  | 0 => rfl
  | 1 => rfl
  | 2 => rfl

theorem busy_reset : State.reset.busy = false := rfl

/-- What the ports show of an idle block: `WR` and `CMD` are ready and `TX` is not valid (10_state R18). -/
theorem ports_of_idle {s : State} (h : s.busy = false) :
    wrReady s = true ∧ cmdReady s = true ∧ txValid s = false := by
  simp [wrReady, cmdReady, txValid, h]

/-- Settles O34: the registers are read off the reset state, the cells off its empty memory, and the ports follow
from `BUSY = 0`. -/
theorem resetState : Obligations.ResetState :=
  ⟨memRead_reset, rowLen_reset, rfl, rfl, rfl, busy_reset, rfl, rfl, ports_of_idle busy_reset⟩

end Sys2Proof.Proofs.ResetState
end

section
/-! The text path (41_text_encoder): `PAD` and `PAR`. -/

namespace Sys2Proof.Proofs.TextEncoder
open Sys2Proof.Machine Sys2Proof.Laws

/-- Settles O45: the length is `pad_length`; the three parts are `PAD` itself, with the row's width put in. -/
theorem padCentresEveryRow : Obligations.PadCentresEveryRow :=
  fun p _ hlen => ⟨pad_length p hlen, rfl⟩

/-- Masking with 7F keeps bits 6..0 and clears bit 7. -/
theorem getLsbD_and_low (b : Byte) (i : Nat) :
    (b &&& 0x7F).getLsbD i = (decide (i < 7) && b.getLsbD i) := by
  have hmask : (0x7F : Byte).getLsbD i = decide (i < 7) := by
    rw [show (0x7F : Byte) = BitVec.setWidth 8 (BitVec.allOnes 7) from rfl, BitVec.getLsbD_setWidth,
      BitVec.getLsbD_allOnes, ← Bool.decide_and, decide_eq_decide]
    omega
  rw [BitVec.getLsbD_and, hmask, Bool.and_comm]

/-- The popcount, bit 7 counted apart from bits 6..0. -/
theorem popcount_eq_countP_add_top (b : Byte) :
    popcount b = (List.range 7).countP (fun i => b.getLsbD i) + (b.getLsbD 7).toNat := by
  rw [popcount, List.range_succ, List.countP_append, List.countP_singleton, Bool.toNat, cond_eq_ite]

theorem popcount_eq_low_add_top (b : Byte) :
    popcount b = popcount (b &&& 0x7F) + (b.getLsbD 7).toNat := by
  have hlow : (List.range 7).countP (fun i => (b &&& 0x7F).getLsbD i) =
      (List.range 7).countP (fun i => b.getLsbD i) := by
    refine List.countP_congr fun i hi => ?_
    rw [getLsbD_and_low, decide_eq_true (List.mem_range.1 hi), Bool.true_and]
  rw [popcount_eq_countP_add_top b, popcount_eq_countP_add_top (b &&& 0x7F), hlow, getLsbD_and_low]
  simp

theorem par_setMsbIfEven (b : Byte) :
    par .setMsbIfEven b = if popcount b % 2 = 0 then b ||| 0x80 else b := rfl

/-- Under `FORCE_ODD` bits 6..0 are the byte's and bit 7 is set when they count even (41 R94). -/
theorem getLsbD_par_forceOdd (b : Byte) (i : Nat) :
    (par .forceOdd b).getLsbD i =
      if i < 7 then b.getLsbD i else decide (i = 7) && decide (popcount (b &&& 0x7F) % 2 = 0) := by
  have happend : (par .forceOdd b).getLsbD i =
      if i < 7 then (b.extractLsb' 0 7).getLsbD i
      else (BitVec.ofBool (popcount (b &&& 0x7F) % 2 = 0)).getLsbD (i - 7) := BitVec.getLsbD_append
  rw [happend]
  split
  · next hlow => simp [hlow]
  · next htop =>
    have hi : i - 7 = 0 ↔ i = 7 := by omega
    simp [BitVec.getLsbD_ofBool, hi]

theorem or_msb_and_low (b : Byte) : (b ||| 0x80) &&& 0x7F = b &&& 0x7F := by
  rw [BitVec.and_comm, BitVec.and_or_distrib_left, BitVec.and_comm]
  exact BitVec.or_zero

/-- `PAR` keeps bits 6..0 in either mode (41 R92, R94). -/
theorem par_and_low (mode : ParityMode) (b : Byte) : par mode b &&& 0x7F = b &&& 0x7F := by
  cases mode with
  | setMsbIfEven =>
    rw [par_setMsbIfEven]
    split
    · exact or_msb_and_low b
    · rfl
  | forceOdd =>
    refine BitVec.eq_of_getLsbD_eq fun i hi => ?_
    rw [getLsbD_and_low, getLsbD_and_low, getLsbD_par_forceOdd]
    by_cases hlow : i < 7
    · rw [if_pos hlow]
    · simp [hlow]

theorem getLsbD_seven_par_setMsbIfEven (b : Byte) :
    (par .setMsbIfEven b).getLsbD 7 = (b.getLsbD 7 || popcount b % 2 == 0) := by
  rw [par_setMsbIfEven]
  split
  · next heven => simp [heven]
  · next hodd => simp [hodd]

/-- Under `FORCE_ODD` the new bit 7 makes up what bits 6..0 lack to an odd count (41 R94). -/
theorem popcount_par_forceOdd_odd (b : Byte) : popcount (par .forceOdd b) % 2 = 1 := by
  rw [popcount_eq_low_add_top, par_and_low, getLsbD_par_forceOdd]
  generalize popcount (b &&& 0x7F) = n
  by_cases heven : n % 2 = 0
  · simp [heven, Nat.add_mod]
  · simp [Nat.mod_two_ne_zero.1 heven]

/-- Settles O46: bits 6..0 in both modes, bit 7 of each mode, and the parity that `FORCE_ODD` gives. -/
theorem parSetsOnlyTheTopBit : Obligations.ParSetsOnlyTheTopBit :=
  fun b => ⟨fun mode => par_and_low mode b, getLsbD_seven_par_setMsbIfEven b,
    popcount_par_forceOdd_odd b⟩

end Sys2Proof.Proofs.TextEncoder
end

section
/-! The row placement selector `PLACE` (42_row_placement). -/

namespace Sys2Proof.Proofs.RowPlacement
open Sys2Proof.Machine Sys2Proof.Laws

theorem placeHi_eq (hp : Bool) : (if hp then placeHiHigh else placeHiNormal) = if hp then 0x15 else 0x02 := by
  cases hp <;> rfl

/-- The slot of a row is the entry of bottom, middle, top at the number of rows below it (42 R111). -/
theorem slotTable_getElem?_eq_slotOf {n i : Nat} (hn : n ≤ 3) :
    [(0x38 : Byte), 0x64, 0x49][n - 1 - i]? = some (slotOf n i) := by
  have hbelow : n - 1 - i < 3 := by omega
  unfold slotOf
  match n - 1 - i, hbelow with
  | 0, _ => rfl
  | 1, _ => rfl
  | 2, _ => rfl

/-- `PLACE` on the six valid pairs (42 R110). -/
theorem place_valid {n i : Nat} (hp : Bool) (hi : i < n) (hn : n ≤ 3) :
    place i n hp = .ok (if hp then 0x15 else 0x02, slotOf n i) := by
  rw [place, slot_eq hi hn, ← placeHi_eq]

/-- `PLACE` on every other pair (42 R112). -/
theorem place_invalid {n i : Nat} (hp : Bool) (h : ¬ (i < n ∧ n ≤ 3)) :
    place i n hp = .error .invalidRowSelection := by
  rw [place, slot_none h]

/-- Settles O48: the valid pairs by `place_valid`, whose slot is the table's entry; the others by
`place_invalid`. -/
theorem placeAnswersSixPairs : Obligations.PlaceAnswersSixPairs :=
  fun n i hp => ⟨fun ⟨hi, hn⟩ => ⟨slotOf n i, slotTable_getElem?_eq_slotOf hn, place_valid hp hi hn⟩, place_invalid hp⟩

end Sys2Proof.Proofs.RowPlacement
end

section
/-! What the operations that all instructions of the packet builder share answer when the block is idle, and
what the `TX` step answers with a packet in flight (43_packet_builder). -/

namespace Sys2Proof.Proofs.PacketBuilder
open Sys2Proof.Machine Sys2Proof.Laws

variable {s : State}

theorem acceptWrite_idle (hidle : s.busy = false) (write : State → State) :
    acceptWrite write s = .next (write s) := by
  simp [acceptWrite, hidle]

theorem accept_idle_ok (hidle : s.busy = false) (o : Opr) (packet : List Byte) :
    accept o (.ok packet) s = .next (launch packet (latch o s)) := by
  simp [accept, hidle]

theorem txTransfer_offered {b : Byte} (hbusy : s.busy = true) (hbyte : s.pkt[s.idx.toNat]? = some b) :
    txTransfer s = .next (handOut b s) := by
  simp [txTransfer, hbusy, hbyte]

/-! ### The instructions on an idle block -/

theorem exec_wrch_idle (hidle : s.busy = false) (r : BitVec 2) (k : BitVec 6) (b : Byte) :
    exec (.wrch r k b) s = .next (writeCell r k b s) :=
  acceptWrite_idle hidle _

theorem exec_wrlen_idle (hidle : s.busy = false) (r : BitVec 2) (x : BitVec 8) (n : BitVec 6) :
    exec (.wrlen r x n) s = .next (writeLen r n s) :=
  acceptWrite_idle hidle _

theorem exec_pagesel_idle (hidle : s.busy = false) (p : BitVec 12) (n : BitVec 3) :
    exec (.pagesel p n) s =
      .next (launch (pageSelPacket (pageOperand s.params p)) (latch ⟨0b00, p, n⟩ s)) :=
  accept_idle_ok hidle _ _

theorem exec_settext_idle (hidle : s.busy = false) (p : BitVec 12) {n : BitVec 3} {packet : List Byte}
    (hbuilt : setTextPacket s n = .ok packet) :
    exec (.settext p n) s = .next (launch packet (latch ⟨0b01, p, n⟩ s)) := by
  rw [← accept_idle_ok hidle, ← hbuilt]; rfl

theorem exec_reveal_idle (hidle : s.busy = false) (p : BitVec 12) (n : BitVec 3) :
    exec (.reveal p n) s = .next (launch [byteReveal] (latch ⟨0b10, p, n⟩ s)) :=
  accept_idle_ok hidle _ _

theorem exec_clear_idle (hidle : s.busy = false) (p : BitVec 12) (n : BitVec 3) :
    exec (.clear p n) s = .next (launch [byteClear] (latch ⟨0b11, p, n⟩ s)) :=
  accept_idle_ok hidle _ _

end Sys2Proof.Proofs.PacketBuilder
end

section
/-! The host writes `WRCH` and `WRLEN` (43_packet_builder §1). -/

namespace Sys2Proof.Proofs.HostWrites
open Sys2Proof.Machine Sys2Proof.Laws Sys2Proof.Proofs.PacketBuilder

theorem isCell_iff {r : BitVec 2} {k : BitVec 6} : isCell r k = true ↔ r.toNat ≤ 2 ∧ k.toNat ≤ 34 := by
  simp [isCell]

theorem memRead_memWrite (m : Memory) (x : Nat) (v : Byte) (a : Nat) :
    memRead (memWrite m x v) a = if a = x then some v else memRead m a := by
  split
  · next heq => rw [heq, memRead_memWrite_self]
  · next hne => exact memRead_memWrite_other m v hne

theorem writeCell_cell {r : BitVec 2} {k : BitVec 6} (h : isCell r k = true) (b : Byte) (s : State) :
    writeCell r k b s = { s with rowbuf := memWrite s.rowbuf (cellAddr r.toNat k.toNat) b } :=
  if_pos h

theorem writeCell_nonCell {r : BitVec 2} {k : BitVec 6} (h : ¬ isCell r k = true) (b : Byte) (s : State) :
    writeCell r k b s = s :=
  if_neg h

/-- Settles O1: on an idle block the effect is `writeCell`, one write of the row buffer for a cell and nothing
for a non-cell. -/
theorem wrchWritesItsCell : Obligations.WrchWritesItsCell := by
  intro r k b s
  refine ⟨fun hidle hout => ?_, fun hidle hcell => ?_⟩
  · rw [exec_wrch_idle hidle, writeCell_nonCell (mt isCell_iff.1 hout)]
  · refine ⟨_, exec_wrch_idle hidle r k b, ?_⟩
    rw [writeCell_cell (isCell_iff.2 hcell)]
    exact ⟨rfl, memRead_memWrite s.rowbuf _ b⟩

/-- The three lengths after `WRLEN`: row 3 has none, so a write to it reaches no row (43 R121). -/
theorem rowLen_writeLen (r : BitVec 2) (n : BitVec 6) (s : State) (q : Fin 3) :
    rowLen (writeLen r n s) q = if q.val = r.toNat then n else rowLen s q := by
  unfold writeLen
  split
  · next hr => rw [hr]; fin_cases q <;> rfl
  · next hr => rw [hr]; fin_cases q <;> rfl
  · next hr => rw [hr]; fin_cases q <;> rfl
  · next h0 h1 h2 =>
    have hrow : q.val ≠ r.toNat :=
      match q with
      | 0 => Ne.symm h0
      | 1 => Ne.symm h1
      | 2 => Ne.symm h2
    rw [if_neg hrow]

theorem writeLen_eq (r : BitVec 2) (n : BitVec 6) (s : State) :
    writeLen r n s = { s with
      rowlen0 := (writeLen r n s).rowlen0
      rowlen1 := (writeLen r n s).rowlen1
      rowlen2 := (writeLen r n s).rowlen2 } := by
  unfold writeLen; split <;> rfl

/-- Settles O2: on an idle block the effect is `writeLen`, to which the ignored bits are no operand. -/
theorem wrlenWritesItsLength : Obligations.WrlenWritesItsLength :=
  fun r x n s hidle => ⟨writeLen r n s, exec_wrlen_idle hidle r x n, writeLen_eq r n s, rowLen_writeLen r n s⟩

end Sys2Proof.Proofs.HostWrites
end

section
/-! The commands with a packet of fixed form: `PAGESEL`, `REVEAL` and `CLEAR` (43 R123, R128, R129). -/

namespace Sys2Proof.Proofs.FixedPackets
open Sys2Proof.Machine Sys2Proof.Proofs.PacketBuilder

/-- A page width of 12 or more takes the port's whole field (00_scope R4). -/
theorem pageOperand_full {params : Params} (hwidth : 12 ≤ params.pageWidth) (p : BitVec 12) :
    pageOperand params p = p := by
  have hlt : p.toNat < 2 ^ params.pageWidth :=
    p.isLt.trans_le (Nat.pow_le_pow_right Nat.two_pos hwidth)
  rw [pageOperand, Nat.mod_eq_of_lt hlt, BitVec.ofNat_toNat, BitVec.setWidth_eq]

theorem extractLsb'_eq_ofNat_div (p : BitVec 12) (start : Nat) :
    p.extractLsb' start 4 = BitVec.ofNat 4 (p.toNat / 2 ^ start) := by
  rw [← Nat.shiftRight_eq_div_pow]; rfl

theorem pageMagazine_eq (p : BitVec 12) : pageMagazine p = BitVec.ofNat 4 (p.toNat / 256) :=
  extractLsb'_eq_ofNat_div p 8

/-- The mask F0 keeps the four bits that the nibble takes. -/
theorem pageTens_eq (p : BitVec 12) : pageTens p = BitVec.ofNat 4 ((p &&& 0xF0).toNat / 16) := by
  have hmask : (p &&& 0xF0).extractLsb' 4 4 = pageTens p := by
    rw [BitVec.extractLsb'_and]; exact BitVec.and_allOnes
  rw [← hmask]
  exact extractLsb'_eq_ofNat_div _ 4

/-- The mask 0F keeps the four bits that the nibble takes. -/
theorem pageUnits_eq (p : BitVec 12) : pageUnits p = BitVec.ofNat 4 (p &&& 0x0F).toNat := by
  have hmask : (p &&& 0x0F).extractLsb' 0 4 = pageUnits p := by
    rw [BitVec.extractLsb'_and]; exact BitVec.and_allOnes
  rw [← hmask]
  rfl

theorem pageSelPacket_eq (p : BitVec 12) :
    pageSelPacket p = [0x0E, 0x15, ham (BitVec.ofNat 4 (p.toNat / 256)),
      ham (BitVec.ofNat 4 ((p &&& 0xF0).toNat / 16)), ham (BitVec.ofNat 4 (p &&& 0x0F).toNat)] := by
  rw [← pageMagazine_eq, ← pageTens_eq, ← pageUnits_eq]; rfl

/-- Settles O3: the operand is the whole field, and each nibble of it is the rule's `div` and `and`. -/
theorem pageselBuildsItsPacket : Obligations.PageselBuildsItsPacket := by
  intro p n s hidle hwidth
  rw [exec_pagesel_idle hidle, pageOperand_full hwidth, pageSelPacket_eq]
  rfl

/-- Settles O4: what `accept` launches is the one byte 10, and `IDX` 0 is the last index of one byte. -/
theorem revealBuildsItsByte : Obligations.RevealBuildsItsByte :=
  fun p n _ hidle => ⟨_, exec_reveal_idle hidle p n, rfl, rfl, rfl⟩

/-- Settles O5: what `accept` launches is the one byte 98, and `IDX` 0 is the last index of one byte. -/
theorem clearBuildsItsByte : Obligations.ClearBuildsItsByte :=
  fun p n _ hidle => ⟨_, exec_clear_idle hidle p n, rfl, rfl, rfl⟩

end Sys2Proof.Proofs.FixedPackets
end

section
/-! The packet of `SETTEXT`: its row blocks and their order (43 R125 to R127). -/

namespace Sys2Proof.Proofs.SetTextPacket
open Sys2Proof.Machine Sys2Proof.Laws Sys2Proof.Proofs.PacketBuilder Sys2Proof.Proofs.RowPlacement

theorem builtBlock_length (p : Params) (i n : Nat) {t : List Byte} (hlen : t.length ≤ 35) :
    (rowBlockBytes (builtBlock p i n t)).length = 42 :=
  rowBlockBytes_length (text_length_of_wf (builtBlock_wf p i n hlen))

theorem rowBlockBytes_builtBlock (p : Params) (i n : Nat) (t : List Byte) :
    rowBlockBytes (builtBlock p i n t) = [0x02, slotOf n i, 0x0D, 0x0B, 0x0B] ++ encText p (pad p t) ++
      (if p.frameCtrl = .literal then [0x0A, 0x0A] else [0x8A, 0x8A]) := by
  rw [← apply_ite (fun lf : Byte => [lf, lf]), ← frameByte_lf]; rfl

/-- Settles O8: the block is `builtBlock`'s bytes, its placement the one `PLACE` gives. -/
theorem rowBlockLayout : Obligations.RowBlockLayout :=
  fun p i n t hi hn hlen => ⟨0x02, slotOf n i, rowBlockBytes (builtBlock p i n t), place_valid false hi hn,
    rowBlock_eq p t hi hn, builtBlock_length p i n hlen, rowBlockBytes_builtBlock p i n t⟩

theorem rowCode_eq_getElem? {n : Nat} (h1 : 1 ≤ n) (h3 : n ≤ 3) :
    rowCode n = [(0xC7 : Byte), 0x8C, 0x9B][n - 1]? := by
  interval_cases n <;> rfl

/-- The rows of a request are the first rows of the block, in order. -/
theorem requestRows_eq_take (n : BitVec 3) : requestRows n = ([0, 1, 2] : List (Fin 3)).take n.toNat := by
  revert n; decide

/-- The packet of a `SETTEXT` whose rows `r` read as the texts `ts r` (43 R125). -/
theorem setTextPacket_of_rowTexts {s : State} {n : BitVec 3} {ts : Fin 3 → List Byte}
    (hvalid : settextError s n = none) (hts : ∀ r : Fin 3, r.val < n.toNat → rowText s r = .ok (ts r)) :
    setTextPacket s n = .ok ([0x8F] ++ ([(0xC7 : Byte), 0x8C, 0x9B][n.toNat - 1]?).toList ++
      (([0, 1, 2] : List (Fin 3)).take n.toNat).flatMap
        fun r => rowBlockBytes (builtBlock s.params r.val n.toNat (ts r))) := by
  have htexts : List.Forall₂ (fun r t => rowText s r = .ok t) (requestRows n) ((requestRows n).map ts) :=
    List.forall₂_map_right_iff.2 (List.forall₂_same.2 fun r hr => hts r (mem_requestRows.1 hr))
  obtain ⟨c, hc, -, hpacket⟩ := setTextPacket_of_texts hvalid htexts
  obtain ⟨⟨h1, h3⟩, -⟩ := settextError_none.1 hvalid
  rw [hpacket, ← rowCode_eq_getElem? h1 h3, hc, ← requestRows_eq_take, ← List.map_prod_left_eq_zip,
    List.flatMap_map]
  rfl

/-- Settles O7: the cells below each length are what `rowText` reads, and the packet is built from these texts. -/
theorem settextBuildsItsPacket : Obligations.SettextBuildsItsPacket := by
  intro p n s ts hidle h1 h3 hfit hcells
  have hts : ∀ r : Fin 3, r.val < n.toNat → rowText s r = .ok (ts r) := fun r hr =>
    readCells_ok (ts r) (hcells r hr).1 (by simpa only [Nat.zero_add] using (hcells r hr).2)
  have hpacket := setTextPacket_of_rowTexts (settextError_none.2 ⟨⟨h1, h3⟩, hfit⟩) hts
  exact ⟨_, fun r => rowBlockBytes (builtBlock s.params r.val n.toNat (ts r)),
    exec_settext_idle hidle p hpacket, fun r hr => rowBlock_eq s.params (ts r) hr h3, rfl,
    rfl, rfl, rfl, rfl, rfl, rfl, rfl⟩

end Sys2Proof.Proofs.SetTextPacket
end

section
/-! The `TX` step (43 R130). -/

namespace Sys2Proof.Proofs.TxStep
open Sys2Proof.Machine Sys2Proof.Laws Sys2Proof.Proofs.PacketBuilder

/-- With a byte at `IDX` the packet is not empty, so `IDX + 1 = len(PKT)` is the rule's `IDX = len(PKT) - 1`. -/
theorem atLast_iff {s : State} (hbyte : s.idx.toNat < s.pkt.length) :
    atLast s = true ↔ s.idx.toNat = s.pkt.length - 1 := by
  rw [atLast, beq_iff_eq]; omega

theorem handOut_atLast {s : State} (h : atLast s = true) (b : Byte) :
    (handOut b s).idx = 0 ∧ (handOut b s).busy = false := by
  rw [handOut, if_pos h]; exact ⟨rfl, rfl⟩

theorem handOut_not_atLast {s : State} (h : ¬ atLast s = true) (b : Byte) :
    (handOut b s).idx = s.idx + 1 ∧ (handOut b s).busy = s.busy := by
  rw [handOut, if_neg h]; exact ⟨rfl, rfl⟩

/-- A chosen `TX` transfer hands out the byte at `IDX`, in a state where the host alone has moved on. -/
theorem step_tx {s s' : State} {k : Nat} {rest : List HostOp} {b : Byte}
    (hmove : chooseMove s = some (.act k, s')) (hact : s.acts[k]? = some (.port .tx :: rest))
    (hbusy : s.busy = true) (hbyte : s.pkt[s.idx.toNat]? = some b) :
    ∃ u, HostOnly s u ∧ step s = .next (handOut b u) := by
  have hact' : s'.acts[k]? = some (.port .tx :: rest) := by
    rw [(chooseMove_some hmove).1]; exact hact
  have hrun : step s = txTransfer (hostTakes (setAct k rest s')) := by
    simp only [step, hmove, runMove, hact', portOp, txMove_eq]
  have hhost : HostOnly s (hostTakes (setAct k rest s')) :=
    ((chooseMove_hostOnly hmove).trans (setAct_hostOnly k rest s')).trans (hostTakes_hostOnly _)
  obtain ⟨-, -, -, -, -, hpkt, hidx, hbusy', -⟩ := hhost.1
  refine ⟨_, hhost, hrun.trans (txTransfer_offered (hbusy'.trans hbusy) ?_)⟩
  rw [hpkt, hidx, hbyte]

/-- Settles O21: the step is `handOut` of the byte at `IDX`, by cases on whether it is the packet's last. -/
theorem txStepHandsOutOneByte : Obligations.TxStepHandsOutOneByte := by
  intro s s' k rest b hmove hact hbusy hbyte
  obtain ⟨u, ⟨⟨hrowbuf, hlen0, hlen1, hlen2, hopr, hpkt, hidx, hbusy', herr⟩, htxh, herrs, hparams⟩, hstep⟩ :=
    step_tx hmove hact hbusy hbyte
  have hlast : atLast u = true ↔ s.idx.toNat = s.pkt.length - 1 := by
    rw [← hidx, ← hpkt]
    exact atLast_iff (by rw [hidx, hpkt]; exact (List.getElem?_eq_some_iff.1 hbyte).1)
  refine ⟨handOut b u, hstep, ?_, fun h => handOut_atLast (hlast.2 h) b, fun h => ?_, ?_⟩
  · rw [handOut_txh, htxh, Bool.eq_iff_iff.2 (hlast.trans decide_eq_true_iff.symm)]
  · obtain ⟨hidx', hstays⟩ := handOut_not_atLast (mt hlast.1 h) b
    exact ⟨by rw [hidx', hidx], by rw [hstays, hbusy', hbusy]⟩
  · simp only [handOut_pkt, handOut_err, handOut_errs, handOut_opr, handOut_rowbuf, handOut_rowlen0,
      handOut_rowlen1, handOut_rowlen2, handOut_params]
    exact ⟨hpkt, herr, herrs, hopr, hrowbuf, hlen0, hlen1, hlen2, hparams⟩

end Sys2Proof.Proofs.TxStep
end

section
/-! What the host does by itself (44_host_sequences): its own operations and its timer leave the block alone, and
what each of them does to the session. -/

namespace Sys2Proof.Proofs.HostOps
open Sys2Proof.Machine Sys2Proof.Laws

theorem step_eq_runMove {s s' : State} {m : Move} (hmove : chooseMove s = some (m, s')) :
    step s = runMove m s' := by
  simp only [step, hmove]

theorem runMove_own {s : State} {k : Nat} {op : SessionOp} {rest : List HostOp}
    (hact : s.acts[k]? = some (.own op :: rest)) : runMove (.act k) s = .next (sessionOp op k rest s) := by
  simp only [runMove, hact]

/-- Settles O49: the step is `fireTimer` or `sessionOp`, each of which moves the host alone. -/
theorem sessionLeavesBlockAlone : Obligations.SessionLeavesBlockAlone := by
  intro s s' m hmove hm
  have hown : ∃ t, runMove m s' = .next t ∧ HostOnly s' t := by
    rcases hm with rfl | ⟨k, op, rest, rfl, hact⟩
    · exact ⟨_, rfl, fireTimer_hostOnly s'⟩
    · exact ⟨_, runMove_own hact, sessionOp_hostOnly op k rest s'⟩
  obtain ⟨t, hrun, ht⟩ := hown
  obtain ⟨hblock, htxh, herrs, -⟩ := (chooseMove_hostOnly hmove).trans ht
  exact ⟨t, (step_eq_runMove hmove).trans hrun, hblock, htxh, herrs⟩

/-! ### Opening a connection -/

theorem ensureConnected_connected {s : State} (hconn : s.session.conn = .connected) (host : String)
    (port i : Nat) (rest : List HostOp) :
    sessionOp (.ensureConnected host port) i rest s = setAct i rest s :=
  if_pos hconn

theorem ensureConnected_opens {s : State} (hconn : s.session.conn ≠ .connected) (host : String)
    (port i : Nat) (rest : List HostOp) :
    sessionOp (.ensureConnected host port) i rest s =
      { s with
        acts := s.acts.set i (.own .awaitConnect :: rest)
        session.conn := .connecting
        session.peer := some (host, port) } :=
  if_neg hconn

theorem awaitConnect_succeeds {s : State} {ds : List Bool} (hdials : s.session.dials = true :: ds) (i : Nat)
    (rest : List HostOp) :
    sessionOp .awaitConnect i rest s =
      { s with
        acts := s.acts.set i (connectOps s.params ++ .own (.handshakeDone s.session.opened) :: rest)
        session.conn := .connected
        session.handle := some s.session.opened
        session.opened := s.session.opened + 1
        session.dials := ds } := by
  simp only [sessionOp, connectionEnds, hdials]

/-- Settles O52: `ensureConnected` by the state of the connection, then an attempt that succeeds. -/
theorem handshakeFollowsOpening : Obligations.HandshakeFollowsOpening := by
  intro host port i rest s
  refine ⟨fun hconn => ensureConnected_connected hconn host port i rest, fun hconn hi => ?_,
    fun ds hdials hi => ?_⟩
  · rw [ensureConnected_opens hconn]
    exact ⟨List.getElem?_set_self hi, rfl⟩
  · rw [awaitConnect_succeeds hdials]
    exact ⟨rfl, rfl, rfl, List.getElem?_set_self hi⟩

/-! ### The end of a call -/

theorem afterCall_append_ret {call : List HostOp} (hcall : ∀ op ∈ call, op ≠ .own .ret)
    (next : List HostOp) : afterCall (call ++ .own .ret :: next) = next := by
  induction call with
  | nil => exact if_pos rfl
  | cons op ops ih =>
    obtain ⟨hop, hops⟩ := List.forall_mem_cons.1 hcall
    exact (if_neg hop).trans (ih hops)

theorem afterCall_noRet {call : List HostOp} (hcall : ∀ op ∈ call, op ≠ .own .ret) :
    afterCall call = [] := by
  induction call with
  | nil => rfl
  | cons op ops ih =>
    obtain ⟨hop, hops⟩ := List.forall_mem_cons.1 hcall
    exact (if_neg hop).trans (ih hops)

theorem send_noRet (w : PortWord) : ∀ op ∈ send w, op ≠ .own .ret := by
  simp [send]

/-- Loading rows is `WR` words only. -/
theorem loadRows_noRet (rows : List (List Byte)) : ∀ op ∈ loadRows rows, op ≠ .own .ret := by
  intro op hop
  obtain ⟨tr, -, hop⟩ := List.mem_flatMap.1 hop
  rcases List.mem_append.1 hop with hop | hop
  · obtain ⟨ck, -, rfl⟩ := List.mem_map.1 hop
    exact HostOp.noConfusion
  · rw [List.mem_singleton.1 hop]
    exact HostOp.noConfusion

/-- Each public call ends in its one `ret`. -/
theorem call_ends_in_ret (host : String) (port : Nat) (rows : List (List Byte)) (duration : Option Nat) :
    ∀ call ∈ [apiSetText host port rows duration, apiReveal host port, apiClear host port],
      ∃ ops, call = ops ++ [.own .ret] ∧ ∀ op ∈ ops, op ≠ .own .ret := by
  simp only [List.forall_mem_cons, List.not_mem_nil, false_imp_iff, implies_true, and_true]
  refine ⟨⟨_, rfl, ?_⟩, ⟨_, rfl, ?_⟩, ⟨_, rfl, ?_⟩⟩
  · have htail : ∀ op ∈ if duration.getD defaultDurationMs = 0 then []
        else send revealWord ++ [.own (.startTimer (duration.getD defaultDurationMs))], op ≠ .own .ret := by
      split
      · simp
      · simp [send]
    simp only [List.forall_mem_append]
    exact ⟨⟨⟨⟨⟨by simp, loadRows_noRet rows⟩, by simp⟩, send_noRet clearWord⟩, by simp⟩, htail⟩
  · simp [send]
  · simp [send]

/-- Settles O58: `afterCall` drops a call up to its one `ret`, which is the last operation of each public call. -/
theorem awaitedCallsFollow : Obligations.AwaitedCallsFollow := by
  refine ⟨fun i r call next s hi => ⟨List.getElem?_set_self hi, rfl, fun hcall => ?_⟩, call_ends_in_ret⟩
  rw [afterCall_append_ret hcall]
  exact ⟨List.getElem?_set_self hi, afterCall_noRet hcall⟩

end Sys2Proof.Proofs.HostOps
end

section
/-! The settle delay (44 R155): what a step does to the host's clock. -/

namespace Sys2Proof.Proofs.SettleDelay
open Sys2Proof.Machine Sys2Proof.Laws Sys2Proof.Proofs.HostOps

/-- What 44 R155 asks of a step from `s` to `t`: the clock, a first byte, a last byte, anything else. -/
def KeepsDelay (s t : State) : Prop :=
  s.session.now ≤ t.session.now ∧
  (t.txh ≠ s.txh → s.idx = 0 → s.session.settleUntil ≤ t.session.now) ∧
  (∀ b, t.txh = s.txh ++ [⟨b, true⟩] → t.session.settleUntil = t.session.now + s.params.settleMs) ∧
  ((∀ b, t.txh ≠ s.txh ++ [⟨b, true⟩]) → t.session.settleUntil = s.session.settleUntil)

/-- A step that hands out nothing keeps the delay if the clock does not go back and `settleUntil` stands. -/
theorem keepsDelay_of_silent {s t : State} (htxh : t.txh = s.txh) (hnow : s.session.now ≤ t.session.now)
    (huntil : t.session.settleUntil = s.session.settleUntil) : KeepsDelay s t :=
  ⟨hnow, fun hne => absurd htxh hne, fun b hb => by simp [htxh] at hb, fun _ => huntil⟩

theorem sessionOp_clock (op : SessionOp) (i : Nat) (rest : List HostOp) (s : State) :
    s.session.now ≤ (sessionOp op i rest s).session.now ∧
    (sessionOp op i rest s).session.settleUntil = s.session.settleUntil := by
  cases op with
  | ensureConnected host port =>
    simp only [sessionOp, ensureConnected]; split <;> exact ⟨le_rfl, rfl⟩
  | awaitConnect =>
    simp only [sessionOp, connectionEnds]; split <;> exact ⟨le_rfl, rfl⟩
  | handshakeDone handle =>
    simp only [sessionOp, handshakeEnds]; split <;> exact ⟨le_rfl, rfl⟩
  | validate rows =>
    simp only [sessionOp, validateRequest]; split <;> exact ⟨le_rfl, rfl⟩
  | cancelTimer => exact ⟨le_rfl, rfl⟩
  | settle => exact ⟨Nat.le_max_left _ _, rfl⟩
  | checkErr => simp only [sessionOp, checkErr]; split <;> exact ⟨le_rfl, rfl⟩
  | startTimer ms => exact ⟨le_rfl, rfl⟩
  | ret => exact ⟨le_rfl, rfl⟩
  | elapse ms => exact ⟨Nat.le_add_right _ _, rfl⟩
  | transportError handle =>
    obtain ⟨hnow, huntil⟩ := loseConnection_clock handle (setAct i rest s)
    exact ⟨hnow.ge, huntil⟩

/-- An instruction that is no wire row sends nothing and does not concern the session. -/
theorem exec_silent {i : Instr} {s t : State} (hi : ∀ bytes, encode i ≠ .tx bytes)
    (h : exec i s = .next t) : t.txh = s.txh ∧ t.session = s.session := by
  rcases exec_next h with rfl | ⟨-, r, k, b, -, rfl⟩ | ⟨-, r, x, n, -, rfl⟩ | ⟨-, o, e, -, rfl⟩ |
    ⟨-, o, p, -, -, rfl⟩ | ⟨-, htx, -⟩
  · exact ⟨rfl, rfl⟩
  · exact ⟨writeCell_txh r k b s, writeCell_session r k b s⟩
  · exact ⟨writeLen_txh r n s, writeLen_session r n s⟩
  · exact ⟨rfl, rfl⟩
  · exact ⟨rfl, rfl⟩
  · exact absurd htx (hi _)

theorem exec_keepsDelay {i : Instr} {s t : State} (hi : ∀ bytes, encode i ≠ .tx bytes)
    (h : exec i s = .next t) : KeepsDelay s t := by
  obtain ⟨htxh, hsession⟩ := exec_silent hi h
  exact keepsDelay_of_silent htxh (by rw [hsession]) (by rw [hsession])

theorem encode_decodeWr_ne_tx (w : PortWord) (bytes : List Byte) : encode (decodeWr w) ≠ .tx bytes := by
  unfold decodeWr; split <;> exact PortItem.noConfusion

theorem encode_decodeCmd_ne_tx (w : PortWord) (bytes : List Byte) : encode (decodeCmd w) ≠ .tx bytes := by
  unfold decodeCmd; split <;> exact PortItem.noConfusion

/-- With nothing on `TX` the host has nothing to wait for and nothing to note. -/
theorem hostTakes_idle {s : State} (hidle : s.busy = false) : hostTakes s = s := by
  simp [hostTakes, settleFirst, noteLast, hidle]

/-- The host takes a byte: before a first byte its clock has moved to `settleUntil`, and a last byte sets it. -/
theorem handOut_keepsDelay {s : State} (hbusy : s.busy = true) (b : Byte) :
    KeepsDelay s (handOut b (hostTakes s)) := by
  have hnow := hostTakes_now hbusy
  have huntil := hostTakes_settleUntil hbusy
  simp only [KeepsDelay, handOut_session, handOut_txh, hostTakes_txh, hostTakes_atLast]
  refine ⟨?_, fun _ hfirst => ?_, fun c hc => ?_, fun hc => ?_⟩
  · rw [hnow]; split
    · exact Nat.le_max_left _ _
    · exact le_rfl
  · rw [hnow, if_pos hfirst]
    exact Nat.le_max_right _ _
  · have hlast : atLast s = true := by simpa using congrArg (List.map TxItem.last) hc
    rw [huntil, if_pos hlast]
  · have hlast : ¬ atLast s = true := fun hlast => hc b (by rw [hlast])
    rw [huntil, if_neg hlast]

theorem txMove_keepsDelay {s t : State} (h : txMove s = .next t) : KeepsDelay s t := by
  rw [txMove_eq] at h
  rcases txTransfer_next h with ⟨hidle, rfl⟩ | ⟨hbusy, b, -, rfl⟩
  · rw [hostTakes_busy] at hidle
    rw [hostTakes_idle hidle]
    exact keepsDelay_of_silent rfl le_rfl rfl
  · rw [hostTakes_busy] at hbusy
    exact handOut_keepsDelay hbusy b

/-- What the host has still to do does not concern the delay. -/
theorem keepsDelay_of_setAct {i : Nat} {ops : List HostOp} {s t : State}
    (h : KeepsDelay (setAct i ops s) t) : KeepsDelay s t := h

theorem portOp_keepsDelay {op : PortOp} {i : Nat} {rest : List HostOp} {s t : State}
    (h : portOp op i rest s = .next t) : KeepsDelay s t := by
  cases op with
  | rst =>
    cases h
    obtain ⟨hnow, huntil⟩ := tearLink_clock (setAct i rest s)
    exact keepsDelay_of_silent (tearLink_txh _) hnow.ge huntil
  | wr w => exact keepsDelay_of_setAct (exec_keepsDelay (encode_decodeWr_ne_tx w) h)
  | cmd w => exact keepsDelay_of_setAct (exec_keepsDelay (encode_decodeCmd_ne_tx w) h)
  | tx => exact keepsDelay_of_setAct (txMove_keepsDelay h)
  | takePacket =>
    simp only [portOp] at h
    split at h
    · split at h
      · exact keepsDelay_of_setAct (txMove_keepsDelay h)
      · exact txMove_keepsDelay h
    · cases h
      exact keepsDelay_of_silent rfl le_rfl rfl

theorem runMove_keepsDelay {m : Move} {s t : State} (h : runMove m s = .next t) : KeepsDelay s t := by
  cases m with
  | fire =>
    cases h
    exact keepsDelay_of_silent rfl le_rfl rfl
  | act i =>
    simp only [runMove] at h
    split at h
    · exact portOp_keepsDelay h
    · next op rest _ =>
      cases h
      obtain ⟨-, htxh, -, -⟩ := sessionOp_hostOnly op i rest s
      obtain ⟨hnow, huntil⟩ := sessionOp_clock op i rest s
      exact keepsDelay_of_silent htxh hnow huntil
    · cases h
      exact keepsDelay_of_silent rfl le_rfl rfl

/-- Settles O55: the chosen move keeps the delay, and the choice itself does not concern it. -/
theorem settleDelayIsKept : Obligations.SettleDelayIsKept := by
  intro s t h
  rcases step_next h with rfl | ⟨m, s', hmove, hrun⟩
  · exact keepsDelay_of_silent rfl le_rfl rfl
  · have hkeeps := runMove_keepsDelay hrun
    rw [(chooseMove_some hmove).1] at hkeeps
    exact hkeeps

end Sys2Proof.Proofs.SettleDelay
end

section
/-! Runs of block and host where one activity is all there is: what each of its operations comes to. -/

namespace Sys2Proof.Proofs.HostRun
open Sys2Proof.Machine Sys2Proof.Laws Sys2Proof.Proofs.PacketBuilder Sys2Proof.Proofs.TxStep

/-- Some number of steps leads from `s` to `t`. -/
def Reaches : State → State → Prop := Relation.ReflTransGen fun s t => step s = .next t

theorem reaches_refl (s : State) : Reaches s s := .refl

theorem reaches_of_step {s t : State} (h : step s = .next t) : Reaches s t := .single h

theorem Reaches.trans {s t u : State} (hst : Reaches s t) (htu : Reaches t u) : Reaches s u :=
  Relation.ReflTransGen.trans hst htu

theorem Reaches.run {s t : State} (h : Reaches s t) : ∃ k, Host.Core.run core k s = .next t := by
  induction h using Relation.ReflTransGen.head_induction_on with
  | refl => exact ⟨0, rfl⟩
  | head hstep _ ih =>
    obtain ⟨k, hk⟩ := ih
    exact ⟨k + 1, (run_of_step hstep).trans hk⟩

/-- The state `s` with one activity, which has the operations `ops` to do. -/
def alone (ops : List HostOp) (s : State) : State := { s with acts := [ops] }

theorem alone_self {ops : List HostOp} {s : State} (h : s.acts = [ops]) : alone ops s = s := by
  rw [alone, ← h]

/-- The operations `ops`, whatever stands after them in the one activity, lead from `s` to `t`. -/
def Runs (ops : List HostOp) (s t : State) : Prop :=
  ∀ rest, Reaches (alone (ops ++ rest) s) (alone rest t)

variable {s t u : State} {ops ops' rest : List HostOp}

theorem runs_nil (s : State) : Runs [] s s := fun _ => reaches_refl _

theorem Runs.append (hst : Runs ops s t) (htu : Runs ops' t u) : Runs (ops ++ ops') s u := fun rest => by
  rw [List.append_assoc]; exact (hst _).trans (htu rest)

theorem Runs.cons {op : HostOp} (hst : Runs [op] s t) (htu : Runs ops t u) : Runs (op :: ops) s u :=
  hst.append htu

theorem step_own {op : SessionOp} (hop : op ≠ .awaitConnect) (htimer : timerDue s = false) :
    step (alone (.own op :: rest) s) = .next (sessionOp op 0 rest (alone (.own op :: rest) s)) :=
  step_only rfl (by simp [opEnabled, hop]) htimer

theorem step_port {op : PortOp} (hready : portReady s op = true) (htimer : timerDue s = false) :
    step (alone (.port op :: rest) s) = portOp op 0 rest (alone (.port op :: rest) s) :=
  step_only rfl (by cases op <;> exact hready) htimer

theorem runs_own {op : SessionOp} (hop : op ≠ .awaitConnect) (htimer : timerDue s = false)
    (hdoes : ∀ rest, sessionOp op 0 rest (alone (.own op :: rest) s) = alone rest t) : Runs [.own op] s t :=
  fun rest => reaches_of_step ((step_own hop htimer).trans (congrArg _ (hdoes rest)))

theorem runs_wr {w : PortWord} (hidle : s.busy = false) (htimer : timerDue s = false)
    (hexec : ∀ rest, exec (decodeWr w) (alone rest s) = .next (alone rest t)) : Runs [.port (.wr w)] s t :=
  fun rest => reaches_of_step ((step_port (by simp [portReady, wrReady, hidle]) htimer).trans (hexec rest))

theorem runs_cmd {w : PortWord} (hidle : s.busy = false) (htimer : timerDue s = false)
    (hexec : ∀ rest, exec (decodeCmd w) (alone rest s) = .next (alone rest t)) : Runs [.port (.cmd w)] s t :=
  fun rest => reaches_of_step ((step_port (by simp [portReady, cmdReady, hidle]) htimer).trans (hexec rest))

/-! ### Sending a packet -/

/-- What goes on from `s` to `t` while a packet is sent: `TXH` gains `items`; the rows, the parameters, the timer
and the results stay. -/
structure Sends (items : List TxItem) (s t : State) : Prop where
  txh : t.txh = s.txh ++ items
  rowbuf : t.rowbuf = s.rowbuf
  rowLen : rowLen t = rowLen s
  params : t.params = s.params
  timer : t.session.timer = s.session.timer
  results : t.session.results = s.session.results

theorem Sends.trans {xs ys : List TxItem} (hst : Sends xs s t) (htu : Sends ys t u) :
    Sends (xs ++ ys) s u where
  txh := by rw [htu.txh, hst.txh, List.append_assoc]
  rowbuf := htu.rowbuf.trans hst.rowbuf
  rowLen := htu.rowLen.trans hst.rowLen
  params := htu.params.trans hst.params
  timer := htu.timer.trans hst.timer
  results := htu.results.trans hst.results

theorem timerDue_of_none (htimer : s.session.timer = none) : timerDue s = false := by
  simp only [timerDue, htimer]

theorem rowLen_eq_of_registers (h0 : t.rowlen0 = s.rowlen0) (h1 : t.rowlen1 = s.rowlen1)
    (h2 : t.rowlen2 = s.rowlen2) : rowLen t = rowLen s := by
  funext q
  match q with
  | 0 => exact h0
  | 1 => exact h1
  | 2 => exact h2

@[simp] theorem hostTakes_results (s : State) : (hostTakes s).session.results = s.session.results := by
  unfold hostTakes noteLast settleFirst settle; split <;> split <;> rfl

theorem hostTakes_alone (ops : List HostOp) (s : State) : hostTakes (alone ops s) = alone ops (hostTakes s) := by
  have hfirst : settleFirst (alone ops s) = alone ops (settleFirst s) := by
    rw [settleFirst, settleFirst, apply_ite (alone ops)]; rfl
  have hlast : noteLast (alone ops (settleFirst s)) = alone ops (noteLast (settleFirst s)) := by
    rw [noteLast, noteLast, apply_ite (alone ops)]; rfl
  rw [hostTakes, hfirst, hlast, hostTakes]

theorem handOut_alone (ops : List HostOp) (b : Byte) (s : State) :
    handOut b (alone ops s) = alone ops (handOut b s) := by
  rw [handOut, handOut, apply_ite (alone ops)]; rfl

/-- One byte leaves; the activity has taken the packet when it was the last. -/
theorem step_takePacket {b : Byte} (hbusy : s.busy = true) (hbyte : s.pkt[s.idx.toNat]? = some b)
    (htimer : s.session.timer = none) :
    step (alone (.port .takePacket :: rest) s) =
      .next (alone (if atLast s then rest else .port .takePacket :: rest) (handOut b (hostTakes s))) := by
  have hmove : portOp .takePacket 0 rest (alone (.port .takePacket :: rest) s) =
      txMove (alone (if atLast s then rest else .port .takePacket :: rest) s) :=
    (if_pos hbusy).trans (congrArg txMove (apply_ite (fun ops => alone ops s) _ _ _).symm)
  rw [step_port rfl (timerDue_of_none htimer), hmove, txMove_eq, hostTakes_alone,
    txTransfer_offered (s := alone _ (hostTakes s)) ((hostTakes_busy s).trans hbusy)
      (by simpa [alone] using hbyte), handOut_alone]

theorem sends_handOut (b : Byte) (s : State) : Sends [⟨b, atLast s⟩] s (handOut b (hostTakes s)) where
  txh := by rw [handOut_txh, hostTakes_txh, hostTakes_atLast]
  rowbuf := by simp
  rowLen := rowLen_eq_of_registers (by simp) (by simp) (by simp)
  params := by simp
  timer := by simp
  results := by simp

/-- After a byte that is not the last, the same packet is in flight, one byte further. -/
theorem handOut_hostTakes_goes_on {b : Byte} (hmore : s.idx.toNat + 1 < s.pkt.length)
    (hlen : s.pkt.length ≤ 256) :
    (handOut b (hostTakes s)).busy = s.busy ∧ (handOut b (hostTakes s)).pkt = s.pkt ∧
      (handOut b (hostTakes s)).idx.toNat = s.idx.toNat + 1 := by
  have hlast : ¬ atLast (hostTakes s) = true := by
    rw [hostTakes_atLast, atLast, beq_iff_eq]; omega
  obtain ⟨hidx, hbusy⟩ := handOut_not_atLast hlast b
  refine ⟨hbusy.trans (hostTakes_busy s), by simp, ?_⟩
  rw [hidx, hostTakes_idx, BitVec.toNat_add]
  exact Nat.mod_eq_of_lt (by simp; omega)

/-- The rest of the packet in flight leaves, its last byte marked (43 R130, R131). -/
theorem runs_takePacket {bytes : List Byte} (hbytes : s.pkt.drop s.idx.toNat = bytes) (hne : bytes ≠ [])
    (hbusy : s.busy = true) (hlen : s.pkt.length ≤ 256) (htimer : s.session.timer = none) :
    ∃ t, Runs [.port .takePacket] s t ∧ t.busy = false ∧ Sends (marked bytes) s t := by
  induction bytes generalizing s with
  | nil => exact absurd rfl hne
  | cons b bs ih =>
    have hleft : s.pkt.length - s.idx.toNat = bs.length + 1 := by
      rw [← List.length_drop, hbytes, List.length_cons]
    have hbyte : s.pkt[s.idx.toNat]? = some b := by
      rw [← List.head?_drop, hbytes, List.head?_cons]
    have hrest : s.pkt.drop (s.idx.toNat + 1) = bs := by rw [← List.tail_drop, hbytes, List.tail_cons]
    have hstep := fun rest => step_takePacket (rest := rest) hbusy hbyte htimer
    have hsend := sends_handOut b s
    cases bs with
    | nil =>
      have hlast : atLast s = true := by
        rw [List.length_nil] at hleft
        rw [atLast, beq_iff_eq]; omega
      simp only [hlast, if_true] at hstep hsend
      exact ⟨_, fun rest => reaches_of_step (hstep rest),
        (handOut_atLast ((hostTakes_atLast s).trans hlast) b).2, hsend⟩
    | cons c cs =>
      have hmore : s.idx.toNat + 1 < s.pkt.length := by rw [List.length_cons] at hleft; omega
      have hlast : atLast s = false := by
        rw [atLast, beq_eq_false_iff_ne]; omega
      simp only [hlast, Bool.false_eq_true, if_false] at hstep hsend
      obtain ⟨hbusy', hpkt, hidx⟩ := handOut_hostTakes_goes_on (b := b) hmore hlen
      obtain ⟨t, hruns, hidle, hlater⟩ := ih (s := handOut b (hostTakes s)) (by rw [hpkt, hidx, hrest])
        (List.cons_ne_nil c cs) (hbusy'.trans hbusy) (hpkt ▸ hlen) (hsend.timer.trans htimer)
      exact ⟨t, fun rest => (reaches_of_step (hstep rest)).trans (hruns rest), hidle, hsend.trans hlater⟩

/-- A command that has a packet, after the settle delay. -/
theorem runs_launch {w : PortWord} {o : Opr} {p : List Byte} (hidle : s.busy = false)
    (htimer : s.session.timer = none)
    (hexec : ∀ u, SameBlock s u → u.params = s.params →
      exec (decodeCmd w) u = .next (launch p (latch o u))) :
    Runs [.own .settle, .port (.cmd w)] s (launch p (latch o (settle s))) :=
  (runs_own SessionOp.noConfusion (timerDue_of_none htimer) fun _ => rfl).cons
    (runs_cmd (s := settle s) hidle (timerDue_of_none htimer) fun rest =>
      hexec (alone rest (settle s)) ⟨rfl, rfl, rfl, rfl, rfl, rfl, rfl, rfl, rfl⟩ rfl)

theorem sends_launch (p : List Byte) (o : Opr) (s : State) : Sends [] s (launch p (latch o (settle s))) where
  txh := (List.append_nil _).symm
  rowbuf := rfl
  rowLen := rfl
  params := rfl
  timer := rfl
  results := rfl

/-- A packet just built is taken whole. -/
theorem runs_takeLaunched {p : List Byte} (hp : isWirePacket p = true) (o : Opr)
    (htimer : s.session.timer = none) :
    ∃ t, Runs [.port .takePacket] (launch p (latch o (settle s))) t ∧ t.busy = false ∧
      Sends (marked p) s t := by
  have hlen := wirePacket_length hp
  simp only [List.mem_cons, List.not_mem_nil, or_false] at hlen
  obtain ⟨t, hruns, hidle, hsend⟩ := runs_takePacket (s := launch p (latch o (settle s))) (bytes := p) rfl
    (List.ne_nil_of_length_pos (by omega)) rfl (show p.length ≤ 256 by omega) htimer
  exact ⟨t, hruns, hidle, (sends_launch p o s).trans hsend⟩

/-- "Send X" (44): the packet of a command that reads no state leaves whole. -/
theorem runs_send {w : PortWord} {o : Opr} {p : List Byte} (hidle : s.busy = false)
    (htimer : s.session.timer = none) (hp : isWirePacket p = true)
    (hexec : ∀ u : State, u.busy = false → exec (decodeCmd w) u = .next (launch p (latch o u))) :
    ∃ t, Runs (send w) s t ∧ t.busy = false ∧ Sends (marked p) s t := by
  have hlaunch := runs_launch hidle htimer fun u hblock _ =>
    hexec u (by obtain ⟨-, -, -, -, -, -, -, hbusy, -⟩ := hblock; exact hbusy.trans hidle)
  obtain ⟨t, hruns, hidle', hsend⟩ := runs_takeLaunched hp o htimer
  exact ⟨t, hlaunch.append hruns, hidle', hsend⟩

theorem decodeCmd_clearWord : decodeCmd clearWord = .clear 0 0 := by decide

theorem decodeCmd_revealWord : decodeCmd revealWord = .reveal 0 0 := by decide

theorem runs_sendClear (hidle : s.busy = false) (htimer : s.session.timer = none) :
    ∃ t, Runs (send clearWord) s t ∧ t.busy = false ∧
      Sends [⟨0x98, true⟩] s t :=
  runs_send hidle htimer wirePacket_clear fun u hu => by
    rw [decodeCmd_clearWord, exec_clear_idle hu]

theorem runs_sendReveal (hidle : s.busy = false) (htimer : s.session.timer = none) :
    ∃ t, Runs (send revealWord) s t ∧ t.busy = false ∧
      Sends [⟨0x10, true⟩] s t :=
  runs_send hidle htimer wirePacket_reveal fun u hu => by
    rw [decodeCmd_revealWord, exec_reveal_idle hu]

end Sys2Proof.Proofs.HostRun
end

section
/-! Loading the rows of a request (30 R62 (a)): what a row then holds. -/

namespace Sys2Proof.Proofs.RowLoading
open Sys2Proof.Machine Sys2Proof.Laws Sys2Proof.Proofs.PacketBuilder Sys2Proof.Proofs.HostWrites
  Sys2Proof.Proofs.HostRun

/-- Row `q` holds the text `text`: its length, and each character in its cell. -/
def RowHolds (s : State) (q : Fin 3) (text : List Byte) : Prop :=
  text.length = (rowLen s q).toNat ∧
    ∀ k (h : k < text.length), memRead s.rowbuf (cellAddr q.val k) = some text[k]

theorem rowText_of_rowHolds {s : State} {q : Fin 3} {text : List Byte} (h : RowHolds s q text) :
    rowText s q = .ok text :=
  readCells_ok text h.1 (by simpa only [Nat.zero_add] using h.2)

theorem rowHolds_congr {s t : State} (hbuf : t.rowbuf = s.rowbuf) (hlen : rowLen t = rowLen s) {q : Fin 3}
    {text : List Byte} (h : RowHolds s q text) : RowHolds t q text := by
  rwa [RowHolds, hbuf, hlen]

/-! ### The words of `LOADROW` -/

section
variable (sel : BitVec 1) (r : BitVec 2) (k : BitVec 6) (b : Byte)

theorem wrWord_sel : (wrWord sel r k b).getLsbD 16 = sel.getLsbD 0 := by
  simp only [wrWord, BitVec.getLsbD_append]; rfl

theorem wrWord_row : (wrWord sel r k b).extractLsb' 14 2 = r := by
  rw [wrWord, BitVec.extractLsb'_append_eq_of_le (by omega), BitVec.extractLsb'_append_eq_of_le (by omega),
    BitVec.extractLsb'_append_eq_of_add_le (by omega), BitVec.extractLsb'_eq_self]

theorem wrWord_idx : (wrWord sel r k b).extractLsb' 8 6 = k := by
  rw [wrWord, BitVec.extractLsb'_append_eq_of_le (by omega), BitVec.extractLsb'_append_eq_of_add_le (by omega),
    BitVec.extractLsb'_eq_self]

theorem wrWord_data : (wrWord sel r k b).extractLsb' 0 8 = b := by
  rw [wrWord, BitVec.extractLsb'_append_eq_of_add_le (by omega), BitVec.extractLsb'_eq_self]

theorem wrWord_length : (wrWord sel r k b).extractLsb' 0 6 = b.setWidth 6 := by
  rw [wrWord, BitVec.extractLsb'_append_eq_of_add_le (by omega), BitVec.setWidth_eq_extractLsb' (by omega)]

theorem decodeWr_wrchWord : decodeWr (wrWord 0 r k b) = .wrch r k b := by
  rw [decodeWr, wrWord_sel, wrWord_row, wrWord_idx, wrWord_data]; rfl

theorem decodeWr_wrlenWord : ∃ ignored, decodeWr (wrWord 1 r k b) = .wrlen r ignored (b.setWidth 6) := by
  rw [decodeWr, wrWord_sel, wrWord_row, wrWord_length]; exact ⟨_, rfl⟩

end

/-! ### The cells of a text -/

/-- The memory with `text` in the cells `(r, k)`, `(r, k + 1)`, ... -/
def storeText (r : Nat) : Nat → List Byte → Memory → Memory
  | _, [], m => m
  | k, c :: cs, m => storeText r (k + 1) cs (memWrite m (cellAddr r k) c)

theorem memRead_storeText_other {r k a : Nat} {text : List Byte} {m : Memory}
    (ha : ∀ i < text.length, a ≠ cellAddr r (k + i)) : memRead (storeText r k text m) a = memRead m a := by
  induction text generalizing k m with
  | nil => rfl
  | cons c cs ih =>
    have hrest : ∀ i < cs.length, a ≠ cellAddr r (k + 1 + i) := fun i hi => by
      rw [Nat.add_assoc, Nat.add_comm 1]
      exact ha (i + 1) (Nat.succ_lt_succ hi)
    exact (ih hrest).trans (memRead_memWrite_other m c (ha 0 (Nat.succ_pos _)))

theorem memRead_storeText {r k : Nat} {text : List Byte} {m : Memory} (i : Nat) (hi : i < text.length) :
    memRead (storeText r k text m) (cellAddr r (k + i)) = some text[i] := by
  induction text generalizing k m i with
  | nil => exact absurd hi (Nat.not_lt_zero i)
  | cons c cs ih =>
    cases i with
    | zero =>
      have hlater : memRead (storeText r (k + 1) cs (memWrite m (cellAddr r k) c)) (cellAddr r k) =
          memRead (memWrite m (cellAddr r k) c) (cellAddr r k) :=
        memRead_storeText_other fun j _ => by unfold cellAddr; omega
      exact hlater.trans (memRead_memWrite_self m _ c)
    | succ i =>
      have hcell : k + (i + 1) = k + 1 + i := by omega
      rw [hcell]
      exact ih i (Nat.lt_of_succ_lt_succ hi)

/-- What `LOADROW r, text` comes to for a text that fits. -/
def rowLoaded (r : Fin 3) (text : List Byte) (s : State) : State :=
  writeLen (BitVec.ofNat 2 r.val) (BitVec.ofNat 6 text.length)
    { s with rowbuf := storeText r.val 0 text s.rowbuf }

variable {s : State} {rest : List HostOp} {r : Fin 3} {text : List Byte}

theorem toNat_row (r : Fin 3) : (BitVec.ofNat 2 r.val).toNat = r.val := by
  rw [BitVec.toNat_ofNat]; omega

theorem rowLen_rowLoaded (r : Fin 3) (text : List Byte) (s : State) (q : Fin 3) :
    rowLen (rowLoaded r text s) q = if q = r then BitVec.ofNat 6 text.length else rowLen s q := by
  rw [rowLoaded, rowLen_writeLen, toNat_row]
  simp only [Fin.val_inj]
  rfl

@[simp] theorem rowLoaded_rowbuf (r : Fin 3) (text : List Byte) (s : State) :
    (rowLoaded r text s).rowbuf = storeText r.val 0 text s.rowbuf := by
  simp [rowLoaded]

theorem rowLoaded_holds (hlen : text.length ≤ 35) : RowHolds (rowLoaded r text s) r text := by
  refine ⟨?_, fun k hk => ?_⟩
  · rw [rowLen_rowLoaded, if_pos rfl, BitVec.toNat_ofNat, Nat.mod_eq_of_lt (by omega)]
  · rw [rowLoaded_rowbuf]
    simpa only [Nat.zero_add] using memRead_storeText (r := r.val) (k := 0) k hk

/-- Loading a row leaves what another row holds. -/
theorem rowLoaded_keeps (hlen : text.length ≤ 35) {q : Fin 3} (hq : q ≠ r) {other : List Byte}
    (h : RowHolds s q other) : RowHolds (rowLoaded r text s) q other := by
  obtain ⟨hother, hcells⟩ := h
  refine ⟨by rw [rowLen_rowLoaded, if_neg hq]; exact hother, fun k hk => ?_⟩
  have hk64 : k < 64 := by omega
  rw [rowLoaded_rowbuf, memRead_storeText_other fun i hi heq =>
    hq (Fin.ext (cellAddr_inj hk64 (by omega) heq).1)]
  exact hcells k hk

/-! ### The run -/

theorem writeCell_row (r : Fin 3) {k : Nat} (hk : k < 35) (b : Byte) (s : State) :
    writeCell (BitVec.ofNat 2 r.val) (BitVec.ofNat 6 k) b s =
      { s with rowbuf := memWrite s.rowbuf (cellAddr r.val k) b } := by
  have hk6 : (BitVec.ofNat 6 k).toNat = k := by rw [BitVec.toNat_ofNat]; omega
  rw [writeCell_cell (isCell_iff.2 (by rw [toNat_row, hk6]; omega)), toNat_row, hk6]

theorem exec_wrch_alone {k : Nat} (hk : k < 35) (hidle : s.busy = false) (b : Byte) :
    exec (.wrch (BitVec.ofNat 2 r.val) (BitVec.ofNat 6 k) b) (alone rest s) =
      .next (alone rest { s with rowbuf := memWrite s.rowbuf (cellAddr r.val k) b }) := by
  rw [exec_wrch_idle (s := alone rest s) hidle, writeCell_row r hk]; rfl

theorem exec_wrlen_alone (hidle : s.busy = false) (x : BitVec 2) (ignored : BitVec 8) (n : BitVec 6) :
    exec (.wrlen x ignored n) (alone rest s) = .next (alone rest (writeLen x n s)) := by
  rw [exec_wrlen_idle (s := alone rest s) hidle]; unfold writeLen; split <;> rfl

theorem runs_storeText {k : Nat} (hk : k + text.length ≤ 35) (hidle : s.busy = false)
    (htimer : timerDue s = false) :
    Runs ((text.zipIdx k).map fun ck =>
        .port (.wr (wrWord 0 (BitVec.ofNat 2 r.val) (BitVec.ofNat 6 ck.2) ck.1)))
      s { s with rowbuf := storeText r.val k text s.rowbuf } := by
  induction text generalizing k s with
  | nil => exact runs_nil s
  | cons c cs ih =>
    rw [List.length_cons] at hk
    refine (runs_wr hidle htimer fun rest => ?_).cons
      (ih (s := { s with rowbuf := memWrite s.rowbuf (cellAddr r.val k) c }) (by omega) hidle htimer)
    rw [decodeWr_wrchWord]
    exact exec_wrch_alone (by omega) hidle c

theorem runs_loadRow (hlen : text.length ≤ 35) (hidle : s.busy = false) (htimer : timerDue s = false) :
    Runs (loadRow (BitVec.ofNat 2 r.val) text) s (rowLoaded r text s) := by
  obtain ⟨x, hx⟩ := decodeWr_wrlenWord (BitVec.ofNat 2 r.val) 0 (BitVec.ofNat 8 text.length)
  rw [loadRow, List.take_of_length_le (show text.length ≤ rowWidth from hlen), Nat.min_eq_left (by omega)]
  refine (runs_storeText (by omega) hidle htimer).append
    (runs_wr (s := { s with rowbuf := storeText r.val 0 text s.rowbuf }) hidle htimer fun rest => ?_)
  rw [hx, BitVec.setWidth_ofNat_of_le (by omega)]
  exact exec_wrlen_alone (s := { s with rowbuf := storeText r.val 0 text s.rowbuf }) hidle _ x _

/-- What loading rows leaves as it is: the packet in flight, `TXH`, the parameters and the session. -/
def RowsOnly (s t : State) : Prop :=
  t.busy = s.busy ∧ t.txh = s.txh ∧ t.params = s.params ∧ t.session = s.session

theorem rowLoaded_rowsOnly (r : Fin 3) (text : List Byte) (s : State) : RowsOnly s (rowLoaded r text s) := by
  simp [RowsOnly, rowLoaded]

theorem timerDue_congr {s t : State} (h : t.session = s.session) : timerDue t = timerDue s := by
  rw [timerDue, timerDue, h]

/-- The rows of a request, from row `k` on, are loaded one after the other. -/
theorem runs_loadRowsFrom {rows : List (List Byte)} {k : Nat} (hk : k + rows.length ≤ 3)
    (hrows : ∀ row ∈ rows, row.length ≤ 35) (hidle : s.busy = false) (htimer : timerDue s = false) :
    ∃ t, Runs ((rows.zipIdx k).flatMap fun tr => loadRow (BitVec.ofNat 2 tr.2) tr.1) s t ∧ RowsOnly s t ∧
      (∀ q : Fin 3, ∀ text, q.val < k → RowHolds s q text → RowHolds t q text) ∧
      (∀ q : Fin 3, ∀ i row, q.val = k + i → rows[i]? = some row → RowHolds t q row) := by
  induction rows generalizing k s with
  | nil => exact ⟨s, runs_nil s, ⟨rfl, rfl, rfl, rfl⟩, fun _ _ _ h => h, fun _ _ _ _ h => by simp at h⟩
  | cons row rows ih =>
    rw [List.length_cons] at hk
    obtain ⟨hrow, hrows⟩ := List.forall_mem_cons.1 hrows
    obtain ⟨r, rfl⟩ : ∃ r : Fin 3, r.val = k := ⟨⟨k, by omega⟩, rfl⟩
    obtain ⟨hb, htxh, hparams, hsession⟩ := rowLoaded_rowsOnly r row s
    obtain ⟨t, hruns, ⟨hb', htxh', hparams', hsession'⟩, hkeep, hload⟩ :=
      ih (k := r.val + 1) (by omega) hrows (hb.trans hidle) ((timerDue_congr hsession).trans htimer)
    refine ⟨t, ?_, ⟨hb'.trans hb, htxh'.trans htxh, hparams'.trans hparams, hsession'.trans hsession⟩,
      fun q text hq h => hkeep q text (by omega) (rowLoaded_keeps hrow (fun heq => ?_) h),
      fun q i text hq htext => ?_⟩
    · rw [List.zipIdx_cons, List.flatMap_cons]
      exact (runs_loadRow (r := r) hrow hidle htimer).append hruns
    · rw [heq] at hq; exact lt_irrefl _ hq
    · cases i with
      | zero =>
        obtain rfl : row = text := by simpa using htext
        obtain rfl : q = r := Fin.ext hq
        exact hkeep q row (Nat.lt_succ_self _) (rowLoaded_holds hrow)
      | succ i => exact hload q i text (by omega) (by simpa using htext)

/-- Every row of the request `rows` stands in the row buffer. -/
def RowsLoaded (rows : List (List Byte)) (s : State) : Prop :=
  ∀ q : Fin 3, ∀ row, rows[q.val]? = some row → RowHolds s q row

theorem runs_loadRows {rows : List (List Byte)} (hcount : rows.length ≤ 3)
    (hrows : ∀ row ∈ rows, row.length ≤ 35) (hidle : s.busy = false) (htimer : timerDue s = false) :
    ∃ t, Runs (loadRows rows) s t ∧ RowsOnly s t ∧ RowsLoaded rows t := by
  obtain ⟨t, hruns, hstays, -, hload⟩ := runs_loadRowsFrom (k := 0) (by omega) hrows hidle htimer
  refine ⟨t, ?_, hstays, fun q row => hload q q.val row (Nat.zero_add _).symm⟩
  rw [loadRows, List.take_of_length_le (show rows.length ≤ maxRows from hcount)]
  exact hruns

end Sys2Proof.Proofs.RowLoading
end

section
/-! `API.SetText` on an open connection (44 R153): what it sends, and the timer it leaves. -/

namespace Sys2Proof.Proofs.ApiSetText
open Sys2Proof.Machine Sys2Proof.Laws Sys2Proof.Proofs.PacketBuilder Sys2Proof.Proofs.SetTextPacket
  Sys2Proof.Proofs.HostOps Sys2Proof.Proofs.HostRun Sys2Proof.Proofs.RowLoading

variable {s : State} {rest : List HostOp} {rows : List (List Byte)}

/-- A request that no check of 44 R161 rejects. -/
def RequestFits (rows : List (List Byte)) : Prop :=
  1 ≤ rows.length ∧ rows.length ≤ 3 ∧ ∀ row ∈ rows, row.length ≤ 35

theorem requestError_none (hfits : RequestFits rows) : requestError rows = none := by
  obtain ⟨h1, h3, hrows⟩ := hfits
  have hlong : ¬ rows.any (fun t => rowWidth < t.length) = true := by
    rw [List.any_eq_true]
    rintro ⟨row, hrow, hlong⟩
    exact Nat.not_lt.2 (hrows row hrow) (of_decide_eq_true hlong)
  rw [requestError, if_neg (show ¬ maxRows < rows.length from Nat.not_lt.2 h3), if_neg (by omega), if_neg hlong]

theorem validate_fits (hfits : RequestFits rows) (i : Nat) (rest : List HostOp) (s : State) :
    sessionOp (.validate rows) i rest s = setAct i rest s := by
  simp only [sessionOp, validateRequest, requestError_none hfits]
  split
  · next hnone => cases hnone
  · rfl

/-! ### The packet of the rows -/

theorem rowCount_toNat (hcount : rows.length ≤ 3) : (rowCount rows).toNat = rows.length := by
  rw [rowCount, BitVec.toNat_ofNat]; omega

/-- The row blocks of a request, in order (43 R126). -/
def requestBlocks (p : Params) (rows : List (List Byte)) : List (List Byte) :=
  rows.mapIdx fun i row => rowBlockBytes (builtBlock p i rows.length row)

theorem requestBlocks_getElem? (p : Params) (hcount : rows.length ≤ 3) {i : Nat} {row : List Byte}
    (hrow : rows[i]? = some row) :
    ∃ b, (requestBlocks p rows)[i]? = some b ∧ rowBlock p i rows.length row = .ok b :=
  ⟨_, by rw [requestBlocks, List.getElem?_mapIdx, hrow]; rfl,
    rowBlock_eq p row (List.getElem?_eq_some_iff.1 hrow).1 hcount⟩

/-- The blocks, taken by the block's row numbers. -/
theorem flatMap_rows_eq_requestBlocks (p : Params) (hcount : rows.length ≤ 3) :
    (([0, 1, 2] : List (Fin 3)).take rows.length).flatMap
      (fun r => rowBlockBytes (builtBlock p r.val rows.length (rows.getD r.val []))) =
    (requestBlocks p rows).flatten := by
  match rows, hcount with
  | [], _ => rfl
  | [_], _ => rfl
  | [_, _], _ => rfl
  | [_, _, _], _ => rfl
  | _ :: _ :: _ :: _ :: _, h => simp at h; omega

/-- The packet of a request (43 R125). -/
def requestPacket (p : Params) (rows : List (List Byte)) : List Byte :=
  [0x8F] ++ ([(0xC7 : Byte), 0x8C, 0x9B][rows.length - 1]?).toList ++ (requestBlocks p rows).flatten

theorem setTextPacket_of_rowsLoaded (hfits : RequestFits rows) (hloaded : RowsLoaded rows s) :
    setTextPacket s (rowCount rows) = .ok (requestPacket s.params rows) := by
  obtain ⟨h1, h3, hrows⟩ := hfits
  have hn := rowCount_toNat h3
  have hholds : ∀ r : Fin 3, r.val < (rowCount rows).toNat →
      ∃ h : r.val < rows.length, RowHolds s r rows[r.val] := fun r hr =>
    ⟨hn ▸ hr, hloaded r _ (List.getElem?_eq_getElem (hn ▸ hr))⟩
  have hvalid : settextError s (rowCount rows) = none := by
    refine settextError_none.2 ⟨by omega, fun r hr => ?_⟩
    obtain ⟨hr', hlen, -⟩ := hholds r hr
    rw [← hlen]
    exact hrows _ (List.getElem_mem hr')
  have htexts : ∀ r : Fin 3, r.val < (rowCount rows).toNat → rowText s r = .ok (rows.getD r.val []) :=
    fun r hr => by
      obtain ⟨hr', hrow⟩ := hholds r hr
      rw [List.getD_eq_getElem _ _ hr']
      exact rowText_of_rowHolds hrow
  rw [setTextPacket_of_rowTexts hvalid htexts, hn, flatMap_rows_eq_requestBlocks _ h3]
  rfl

theorem decodeCmd_settextWord : ∀ n : BitVec 3, decodeCmd (settextWord n) = .settext 0 n := by decide

/-! ### The parts of the call -/

/-- Steps 1 and 2 of the call do nothing for a request that fits, on an open connection. -/
theorem runs_checks (host : String) (port : Nat) (hfits : RequestFits rows)
    (hconn : s.session.conn = .connected) (htimer : timerDue s = false) :
    Runs [.own (.ensureConnected host port), .own (.validate rows)] s s :=
  (runs_own SessionOp.noConfusion htimer fun rest =>
      ensureConnected_connected (s := alone _ s) hconn host port 0 rest).cons
    (runs_own SessionOp.noConfusion htimer fun rest => validate_fits hfits 0 rest (alone _ s))

theorem runs_cancelTimer (htimer : timerDue s = false) :
    Runs [.own .cancelTimer] s { s with session.timer := none } :=
  runs_own SessionOp.noConfusion htimer fun _ => rfl

/-- `SETTEXT` of rows that stand in the row buffer, after the settle delay. -/
theorem runs_settextWord (hfits : RequestFits rows) (hloaded : RowsLoaded rows s) (hidle : s.busy = false)
    (htimer : s.session.timer = none) :
    Runs [.own .settle, .port (.cmd (settextWord (rowCount rows)))] s
      (launch (requestPacket s.params rows) (latch ⟨0b01, 0, rowCount rows⟩ (settle s))) := by
  refine runs_launch hidle htimer fun u hblock hparams => ?_
  obtain ⟨hbuf, h0, h1, h2, -, -, -, hbusy, -⟩ := hblock
  have hloaded' : RowsLoaded rows u := fun q row hrow =>
    rowHolds_congr hbuf (rowLen_eq_of_registers h0 h1 h2) (hloaded q row hrow)
  rw [decodeCmd_settextWord, ← hparams]
  exact exec_settext_idle (hbusy.trans hidle) 0 (setTextPacket_of_rowsLoaded hfits hloaded')

theorem runs_checkErr (herr : s.err = errOk) (htimer : timerDue s = false) : Runs [.own .checkErr] s s :=
  runs_own SessionOp.noConfusion htimer fun _ => if_pos herr

/-- The Set-Text packet of the rows leaves whole; the check of `st_err` before it passes. -/
theorem runs_setText (hfits : RequestFits rows) (hloaded : RowsLoaded rows s) (hidle : s.busy = false)
    (htimer : s.session.timer = none) :
    ∃ t, Runs [.own .settle, .port (.cmd (settextWord (rowCount rows))), .own .checkErr, .port .takePacket] s t ∧
      t.busy = false ∧ Sends (marked (requestPacket s.params rows)) s t := by
  obtain ⟨t, htake, hidle', hsend⟩ := runs_takeLaunched
    (wirePacket_setText (setTextPacket_of_rowsLoaded hfits hloaded)) ⟨0b01, 0, rowCount rows⟩ htimer
  have hcheck := runs_checkErr
    (s := launch (requestPacket s.params rows) (latch ⟨0b01, 0, rowCount rows⟩ (settle s))) rfl
    (timerDue_of_none htimer)
  exact ⟨t, (runs_settextWord hfits hloaded hidle htimer).append (hcheck.cons htake), hidle', hsend⟩

/-- What follows the Set-Text packet in a call of the duration `ms`: steps 6 and 7. -/
def timedPart (ms : Nat) : List HostOp :=
  if ms = 0 then [] else send revealWord ++ [.own (.startTimer ms)]

/-- Nothing if untimed, else `10` and the timer, which is not yet due. -/
theorem runs_timedPart (ms : Nat) (hidle : s.busy = false) (htimer : s.session.timer = none) :
    ∃ t, Runs (timedPart ms) s t ∧ t.busy = false ∧ timerDue t = false ∧
      t.session.results = s.session.results ∧
      t.txh = s.txh ++ (if ms = 0 then [] else [⟨0x10, true⟩]) ∧
      t.session.timer = if ms = 0 then none else some (t.session.now + ms) := by
  by_cases hms : ms = 0
  · simp only [timedPart, hms, if_true]
    exact ⟨s, runs_nil s, hidle, timerDue_of_none htimer, rfl, (List.append_nil _).symm, htimer⟩
  · simp only [timedPart, hms, if_false]
    obtain ⟨t, hreveal, hidle', hsend⟩ := runs_sendReveal hidle htimer
    have hstart : Runs [.own (.startTimer ms)] t { t with session.timer := some (t.session.now + ms) } :=
      runs_own SessionOp.noConfusion (timerDue_of_none (hsend.timer.trans htimer)) fun _ => rfl
    have hlater : ¬ t.session.now + ms ≤ t.session.now := by omega
    exact ⟨_, hreveal.append hstart, hidle', decide_eq_false hlater, hsend.results, hsend.txh, rfl⟩

/-- `ret` tells the caller. -/
theorem runs_ret (htimer : timerDue s = false) :
    Runs [.own .ret] s { s with session.results := s.session.results ++ [.returned] } :=
  runs_own SessionOp.noConfusion htimer fun _ => rfl

theorem duration_eq_zero_iff (duration : Option Nat) :
    duration.getD defaultDurationMs = 0 ↔ duration = some 0 := by
  cases duration <;> simp [defaultDurationMs]

/-- The whole call: its parts one after the other. -/
theorem runs_apiSetText (host : String) (port : Nat) (duration : Option Nat) (hfits : RequestFits rows)
    (hidle : s.busy = false) (hconn : s.session.conn = .connected) (htimer : timerDue s = false) :
    ∃ t, Runs (apiSetText host port rows duration) s t ∧ t.busy = false ∧
      t.session.results = s.session.results ++ [.returned] ∧
      t.txh = s.txh ++ [⟨0x98, true⟩] ++ marked (requestPacket s.params rows) ++
        (if duration = some 0 then [] else [⟨0x10, true⟩]) ∧
      t.session.timer =
        if duration = some 0 then none else some (t.session.now + duration.getD defaultDurationMs) := by
  have ⟨_, hcount, hrows⟩ := hfits
  have hchecks := runs_checks host port hfits hconn htimer
  obtain ⟨t1, hload, ⟨hidle1, htxh1, hparams1, hsession1⟩, hloaded⟩ := runs_loadRows hcount hrows hidle htimer
  have hcancel := runs_cancelTimer ((timerDue_congr hsession1).trans htimer)
  obtain ⟨t2, hclear, hidle2, hsend2⟩ :=
    runs_sendClear (s := { t1 with session.timer := none }) (hidle1.trans hidle) rfl
  have hloaded2 : RowsLoaded rows t2 := fun q row hrow =>
    rowHolds_congr hsend2.rowbuf hsend2.rowLen (hloaded q row hrow)
  obtain ⟨t3, htext, hidle3, hsend3⟩ := runs_setText hfits hloaded2 hidle2 hsend2.timer
  obtain ⟨t4, htimed, hidle4, hdue4, hresults4, htxh4, htimer4⟩ :=
    runs_timedPart (duration.getD defaultDurationMs) hidle3 (hsend3.timer.trans hsend2.timer)
  simp only [duration_eq_zero_iff] at htxh4 htimer4
  refine ⟨_, (((((hchecks.append hload).append hcancel).append hclear).append htext).append htimed).append
    (runs_ret hdue4), hidle4, ?_, ?_, htimer4⟩
  · rw [hresults4, hsend3.results, hsend2.results, hsession1]
  · rw [htxh4, hsend3.txh, hsend2.txh, htxh1, hsend2.params, hparams1]

/-- Settles O56: the call runs as the one activity, and what follows it is left. -/
theorem apiSetTextSendsItsPackets : Obligations.ApiSetTextSendsItsPackets := by
  intro host port rows duration rest s hidle hconn htimer hacts h1 h3 hrows
  obtain ⟨t, hruns, hidle', hresults, htxh, htimer'⟩ :=
    runs_apiSetText host port duration ⟨h1, h3, hrows⟩ hidle hconn htimer
  obtain ⟨k, hrun⟩ := (hruns rest).run
  rw [alone_self hacts] at hrun
  exact ⟨k, alone rest t, requestBlocks s.params rows, hrun, rfl, hidle', hresults, List.length_mapIdx,
    fun i row hrow => requestBlocks_getElem? s.params h3 hrow, htxh, htimer'⟩

end Sys2Proof.Proofs.ApiSetText
end

section
/-! The rejections of `SETTEXT`: its first failing check is its error, and no other error is raised (60_exceptions
R171, R172, R173). -/

namespace Sys2Proof.Proofs.SetTextErrors
open Sys2Proof.Machine Sys2Proof.Laws

variable {s : State} {n : BitVec 3}

theorem settextError_tooManyRows (hmany : 3 < n.toNat) : settextError s n = some .tooManyRows :=
  if_pos hmany

/-- For one to three rows only the length check is left to fail (43 R124). -/
theorem settextError_rowTooLong (h1 : 1 ≤ n.toNat) (h3 : n.toNat ≤ 3) (hlong : ¬ RowsFit s n) :
    settextError s n = some .rowTooLong := by
  have hfails : settextError s n ≠ none := fun hnone => hlong (settextError_none.1 hnone).2
  have hcount : ¬ maxRows < n.toNat := Nat.not_lt.2 h3
  have hsome : ¬ n.toNat = 0 := Nat.ne_of_gt h1
  simp only [settextError, if_neg hcount, if_neg hsome] at hfails ⊢
  split
  · rfl
  · next hfit => exact absurd (if_neg hfit) hfails

/-- The rows of a request are all placed, so building their blocks can fault but raises no error (42 R112). -/
theorem rowBlocks_not_raises {m : Nat} (h3 : m ≤ 3) {e : CmdError} :
    ∀ {rs : List (Fin 3)}, (∀ r ∈ rs, r.val < m) → rowBlocks s m rs ≠ .error (.raises e)
  | [], _, h => by cases h
  | r :: rs, hrows, h => by
    have ⟨hr, hrest⟩ := List.forall_mem_cons.1 hrows
    unfold rowBlocks at h
    split at h
    · cases h
    · next t _ =>
      simp only [rowBlock_eq s.params t hr h3] at h
      split at h
      · next hx => exact rowBlocks_not_raises h3 hrest (hx.trans h)
      · cases h

/-- A `SETTEXT` raises the error of its validation and no other (43 R124). -/
theorem setTextPacket_raises_iff {e : CmdError} :
    setTextPacket s n = .error (.raises e) ↔ settextError s n = some e := by
  refine ⟨fun h => ?_, fun h => by simp only [setTextPacket, h]⟩
  cases hcheck : settextError s n with
  | some e' =>
    simpa only [setTextPacket, hcheck, Except.error.injEq, NoPacket.raises.injEq, Option.some.injEq] using h
  | none =>
    obtain ⟨⟨h1, h3⟩, -⟩ := settextError_none.1 hcheck
    obtain ⟨code, hcode, -⟩ := rowCode_of_rows h1 h3
    simp only [setTextPacket, hcheck, hcode] at h
    split at h
    · next hx => exact absurd (hx.trans h) (rowBlocks_not_raises h3 fun _ => mem_requestRows.1)
    · cases h

/-- What a failed command does to an idle block: `OPR` is latched and the error raised (60 R173). -/
theorem exec_settext_rejected (hidle : s.busy = false) (p : BitVec 12) {e : CmdError}
    (hcheck : settextError s n = some e) :
    exec (.settext p n) s = .next (raise e (latch ⟨0b01, p, n⟩ s)) := by
  have hraises := setTextPacket_raises_iff.2 hcheck
  change accept ⟨0b01, p, n⟩ (setTextPacket s n) s = _
  simp [accept, hidle, hraises]

/-- A `SETTEXT` that passes validation either faults or reports no error. -/
theorem exec_settext_err_of_valid (hidle : s.busy = false) {p : BitVec 12} {t : State}
    (hcheck : settextError s n = none) (hexec : exec (.settext p n) s = .next t) : t.err = errOk := by
  rcases accept_next (built := setTextPacket s n) hexec with ⟨hbusy, -⟩ | ⟨-, ⟨e, hraises, -⟩ | ⟨_, -, rfl⟩⟩
  · simp [hidle] at hbusy
  · simp [setTextPacket_raises_iff, hcheck] at hraises
  · rfl

/-- Settles O13: the length check is the one left to fail for one to three rows, and a request that passes it
has passed all. -/
theorem settextRejectsLongRow : Obligations.SettextRejectsLongRow :=
  fun p _ _ hidle h1 h3 =>
    ⟨fun hlong => exec_settext_rejected hidle p (settextError_rowTooLong h1 h3 hlong),
      fun hfit _ hexec => exec_settext_err_of_valid hidle (settextError_none.2 ⟨⟨h1, h3⟩, hfit⟩) hexec⟩

/-- Settles O11: the row count is the first check, before any length is looked at. -/
theorem settextRejectsTooManyRows : Obligations.SettextRejectsTooManyRows :=
  fun p _ _ hidle hmany => exec_settext_rejected hidle p (settextError_tooManyRows hmany)

end Sys2Proof.Proofs.SetTextErrors
end

section
/-! The decoder and the encoder (30_encoding): each undoes the other on all twelve rows. -/

namespace Sys2Proof.Proofs.Encoding
open Sys2Proof.Machine Sys2Proof.Laws Sys2Proof.Proofs.RowLoading

/-! ### `WR` words -/

/-- Adjacent bits, cut anywhere, are put together again. -/
theorem extract_append_extract {w start hi lo : Nat} (x : BitVec w) :
    x.extractLsb' (start + lo) hi ++ x.extractLsb' start lo = x.extractLsb' start (hi + lo) :=
  BitVec.extractLsb'_append_extractLsb'_eq_extractLsb' rfl

theorem extract_extract {w start len start' len' : Nat} (x : BitVec w) (h : start' + len' ≤ len) :
    (x.extractLsb' start len).extractLsb' start' len' = x.extractLsb' (start + start') len' := by
  ext i hi
  have hlow : start' + i < len := by omega
  simp [hlow, Nat.add_assoc]

/-- The ignored bits of a `WRLEN` word stand side by side, across the border of its fields. -/
theorem wrlenWord_eq_append (r : BitVec 2) (ignored : BitVec 8) (n : BitVec 6) :
    wrWord 1 r (ignored.extractLsb' 2 6) (ignored.extractLsb' 0 2 ++ n) =
      (1 : BitVec 1) ++ r ++ ignored ++ n := by
  have hcut : ignored.extractLsb' 2 6 ++ ignored.extractLsb' 0 2 = ignored :=
    (extract_append_extract (start := 0) ignored).trans BitVec.extractLsb'_eq_self
  conv_rhs => rw [← hcut]
  simp only [wrWord, BitVec.append_assoc, BitVec.cast_eq]

theorem decodeWr_wrlen (r : BitVec 2) (ignored : BitVec 8) (n : BitVec 6) :
    decodeWr (wrWord 1 r (ignored.extractLsb' 2 6) (ignored.extractLsb' 0 2 ++ n)) = .wrlen r ignored n := by
  have hignored : ((1 : BitVec 1) ++ r ++ ignored ++ n).extractLsb' 6 8 = ignored := by
    rw [BitVec.extractLsb'_append_eq_of_le le_rfl, BitVec.extractLsb'_append_eq_of_add_le (by omega),
      BitVec.extractLsb'_eq_self]
  have hlength : ((1 : BitVec 1) ++ r ++ ignored ++ n).extractLsb' 0 6 = n := by
    rw [BitVec.extractLsb'_append_eq_of_add_le le_rfl, BitVec.extractLsb'_eq_self]
  rw [decodeWr, wrWord_sel, wrWord_row, wrlenWord_eq_append, hignored, hlength]
  rfl

/-- A `WR` word is its fields, high to low (30 R59). -/
theorem wrWord_fields (w : PortWord) :
    wrWord (w.extractLsb' 16 1) (w.extractLsb' 14 2) (w.extractLsb' 8 6) (w.extractLsb' 0 8) = w := by
  have hrow : w.extractLsb' 16 1 ++ w.extractLsb' 14 2 = w.extractLsb' 14 3 := extract_append_extract w
  have hidx : w.extractLsb' 14 3 ++ w.extractLsb' 8 6 = w.extractLsb' 8 9 := extract_append_extract w
  have hdata : w.extractLsb' 8 9 ++ w.extractLsb' 0 8 = w.extractLsb' 0 17 := extract_append_extract w
  rw [wrWord, hrow, hidx, hdata, BitVec.extractLsb'_eq_self]

theorem extractLsb'_one_eq_ofBool (w : PortWord) (i : Nat) : w.extractLsb' i 1 = BitVec.ofBool (w.getLsbD i) := by
  ext j hj
  obtain rfl : j = 0 := by omega
  simp

theorem encode_decodeWr (w : PortWord) : encode (decodeWr w) = .wr w := by
  have hfields := wrWord_fields w
  unfold decodeWr
  cases hsel : w.getLsbD 16
  · rw [extractLsb'_one_eq_ofBool, hsel] at hfields
    exact congrArg PortItem.wr hfields
  · rw [extractLsb'_one_eq_ofBool, hsel] at hfields
    have hidx : (w.extractLsb' 6 8).extractLsb' 2 6 = w.extractLsb' 8 6 := extract_extract w le_rfl
    have hdata : (w.extractLsb' 6 8).extractLsb' 0 2 ++ w.extractLsb' 0 6 = w.extractLsb' 0 8 := by
      rw [extract_extract w (by omega)]
      exact extract_append_extract (start := 0) w
    simp only [if_true, encode]
    rw [hidx, hdata]
    exact congrArg PortItem.wr hfields

/-! ### `CMD` words -/

theorem cmdWord_fields (w : PortWord) :
    cmdWord (w.extractLsb' 15 2) (w.extractLsb' 3 12) (w.extractLsb' 0 3) = w := by
  have hpage : w.extractLsb' 15 2 ++ w.extractLsb' 3 12 = w.extractLsb' 3 14 := extract_append_extract w
  have hrows : w.extractLsb' 3 14 ++ w.extractLsb' 0 3 = w.extractLsb' 0 17 := extract_append_extract w
  rw [cmdWord, hpage, hrows, BitVec.extractLsb'_eq_self]

theorem cmdWord_op_fields (w : PortWord) :
    cmdWord (BitVec.ofBool (w.getLsbD 16) ++ BitVec.ofBool (w.getLsbD 15)) (w.extractLsb' 3 12)
      (w.extractLsb' 0 3) = w := by
  have hop : BitVec.ofBool (w.getLsbD 16) ++ BitVec.ofBool (w.getLsbD 15) = w.extractLsb' 15 2 := by
    rw [← extractLsb'_one_eq_ofBool, ← extractLsb'_one_eq_ofBool]
    exact extract_append_extract w
  rw [hop, cmdWord_fields]

theorem encode_decodeCmd (w : PortWord) : encode (decodeCmd w) = .cmd w := by
  have hfields := cmdWord_op_fields w
  unfold decodeCmd
  cases h16 : w.getLsbD 16 <;> cases h15 : w.getLsbD 15 <;> rw [h16, h15] at hfields <;>
    exact congrArg PortItem.cmd hfields

section
variable (op : BitVec 2) (page : BitVec 12) (nrows : BitVec 3)

theorem cmdWord_page : (cmdWord op page nrows).extractLsb' 3 12 = page := by
  rw [cmdWord, BitVec.extractLsb'_append_eq_of_le le_rfl, BitVec.extractLsb'_append_eq_of_add_le le_rfl,
    BitVec.extractLsb'_eq_self]

theorem cmdWord_nrows : (cmdWord op page nrows).extractLsb' 0 3 = nrows := by
  rw [cmdWord, BitVec.extractLsb'_append_eq_of_add_le le_rfl, BitVec.extractLsb'_eq_self]

theorem cmdWord_op : (cmdWord op page nrows).getLsbD 16 = op.getLsbD 1 ∧
    (cmdWord op page nrows).getLsbD 15 = op.getLsbD 0 := by
  simp only [cmdWord, BitVec.getLsbD_append]
  exact ⟨rfl, rfl⟩

end

/-- A `CMD` word read back: the operation by its two bits, whatever the operands are. -/
theorem decodeCmd_cmdWord (page : BitVec 12) (nrows : BitVec 3) :
    decodeCmd (cmdWord 0b00 page nrows) = .pagesel page nrows ∧
    decodeCmd (cmdWord 0b01 page nrows) = .settext page nrows ∧
    decodeCmd (cmdWord 0b10 page nrows) = .reveal page nrows ∧
    decodeCmd (cmdWord 0b11 page nrows) = .clear page nrows := by
  simp only [decodeCmd, cmdWord_op, cmdWord_page, cmdWord_nrows]
  exact ⟨rfl, rfl, rfl, rfl⟩

/-! ### Packets, and the two theorems -/

/-- Settles O39: the words of each port field by field, the Set-Text packets by their row blocks. -/
theorem decodeInvertsEncode : Obligations.DecodeInvertsEncode := by
  intro i hwf
  cases i with
  | wrch r k b => exact congrArg Except.ok (decodeWr_wrchWord r k b)
  | wrlen r x n => exact congrArg Except.ok (decodeWr_wrlen r x n)
  | pagesel p n =>
    have ⟨hword, _⟩ := decodeCmd_cmdWord p n
    exact congrArg Except.ok hword
  | settext p n =>
    have ⟨_, hword, _⟩ := decodeCmd_cmdWord p n
    exact congrArg Except.ok hword
  | reveal p n =>
    have ⟨_, _, hword, _⟩ := decodeCmd_cmdWord p n
    exact congrArg Except.ok hword
  | clear p n =>
    have ⟨_, _, _, hword⟩ := decodeCmd_cmdWord p n
    exact congrArg Except.ok hword
  | wirePageSel h t u => rfl
  | wireSetText1 b0 =>
    have h0 := text_length_of_wf hwf
    simpa [encode, decode] using decodeTx_setText (c := 0xC7) (bs := [b0]) rfl (by simpa using h0)
  | wireSetText2 b0 b1 =>
    obtain ⟨w0, w1⟩ := (Bool.and_eq_true _ _).mp hwf
    have hlen : ∀ b ∈ [b0, b1], b.text.length = 35 := by
      simpa using ⟨text_length_of_wf w0, text_length_of_wf w1⟩
    simpa [encode, decode] using decodeTx_setText (c := 0x8C) (bs := [b0, b1]) rfl hlen
  | wireSetText3 b0 b1 b2 =>
    obtain ⟨w01, w2⟩ := (Bool.and_eq_true _ _).mp hwf
    obtain ⟨w0, w1⟩ := (Bool.and_eq_true _ _).mp w01
    have hlen : ∀ b ∈ [b0, b1, b2], b.text.length = 35 := by
      simpa using ⟨text_length_of_wf w0, text_length_of_wf w1, text_length_of_wf w2⟩
    simpa [encode, decode] using decodeTx_setText (c := 0x9B) (bs := [b0, b1, b2]) rfl hlen
  | wireReveal => rfl
  | wireClear => rfl

/-- Settles O40: port by port; a word decodes to its fields, a packet to a row that stands there with its bytes. -/
theorem encodeInvertsDecode : Obligations.EncodeInvertsDecode := by
  intro item i h
  cases item with
  | wr w => cases h; exact encode_decodeWr w
  | cmd w => cases h; exact encode_decodeCmd w
  | tx bytes => exact encode_of_decodeTx h

/-- Settles O41: the decoder runs on each word that the spec writes out. -/
theorem wordsOfTheSpecDecode : Obligations.WordsOfTheSpecDecode := by
  unfold Obligations.WordsOfTheSpecDecode
  decide

end Sys2Proof.Proofs.Encoding
end

section
/-! What each instruction leaves as it is: the frames of commands, writes and wire rows, and the hold while
`BUSY = 1` (10_state R11 to R18, 43 R122, R130). -/

namespace Sys2Proof.Proofs.InstrFrames
open Sys2Proof.Machine Sys2Proof.Laws Sys2Proof.Proofs.PacketBuilder Sys2Proof.Proofs.TxStep
  Sys2Proof.Proofs.SetTextErrors

variable {i : Instr} {o : Opr} {s t : State}

/-! ### The commands -/

/-- A command is the acceptance of what its rule builds, and only a `SETTEXT` can fail to build a packet. -/
theorem exec_command (ho : commandOpr i = some o) (s : State) :
    ∃ built, exec i s = accept o built s ∧
      ((∀ p n, i ≠ .settext p n) → ∃ packet, built = .ok packet) := by
  cases i with
  | pagesel p n => cases ho; exact ⟨_, rfl, fun _ => ⟨_, rfl⟩⟩
  | settext p n => cases ho; exact ⟨_, rfl, fun hne => absurd rfl (hne p n)⟩
  | reveal p n => cases ho; exact ⟨_, rfl, fun _ => ⟨_, rfl⟩⟩
  | clear p n => cases ho; exact ⟨_, rfl, fun _ => ⟨_, rfl⟩⟩
  | wrch | wrlen | wirePageSel | wireSetText1 | wireSetText2 | wireSetText3 | wireReveal | wireClear => cases ho

/-- Settles O17: a command waits, fails or launches its packet, and none of the three touches the rows, `TXH`, the
parameters or the host. -/
theorem commandsFrame : Obligations.CommandsFrame := by
  intro i o s t ho h
  obtain ⟨built, hexec, -⟩ := exec_command ho s
  rcases accept_next (hexec.symm.trans h) with ⟨-, rfl⟩ | ⟨-, ⟨e, -, rfl⟩ | ⟨p, -, rfl⟩⟩
  · exact ⟨rfl, rfl, rfl, rfl, rfl, rfl, rfl, rfl, rfl, fun _ => rfl⟩
  · exact ⟨rfl, rfl, rfl, rfl, rfl, rfl, rfl, rfl, rfl, fun _ => rfl⟩
  · exact ⟨rfl, rfl, rfl, rfl, rfl, rfl, rfl, rfl, rfl, fun _ => rfl⟩

theorem settextError_zeroRows {n : BitVec 3} (hzero : n.toNat = 0) :
    settextError s n = some .invalidRowSelection := by
  simp [settextError, maxRows, hzero]

/-- Settles O12: no row passes the row-count check and fails the next one. -/
theorem settextRejectsZeroRows : Obligations.SettextRejectsZeroRows :=
  fun p _ _ hidle hzero => exec_settext_rejected hidle p (settextError_zeroRows hzero)

theorem exec_settext_err_of_rejected (hidle : s.busy = false) {p : BitVec 12} {n : BitVec 3} {e : CmdError}
    (hcheck : settextError s n = some e) (h : exec (.settext p n) s = .next t) : t.err = errCode e := by
  rw [exec_settext_rejected hidle p hcheck] at h
  cases h
  rfl

/-- `ERR` after an accepted `SETTEXT`: the code of the first check that fails (60 R175). -/
theorem exec_settext_err (hidle : s.busy = false) {p : BitVec 12} {n : BitVec 3}
    (h : exec (.settext p n) s = .next t) :
    (3 < n.toNat → t.err = 0b01) ∧ (n.toNat = 0 → t.err = 0b11) ∧
      (1 ≤ n.toNat → n.toNat ≤ 3 → (¬ RowsFit s n → t.err = 0b10) ∧ (RowsFit s n → t.err = 0b00)) :=
  ⟨fun hmany => exec_settext_err_of_rejected hidle (settextError_tooManyRows hmany) h,
    fun hzero => exec_settext_err_of_rejected hidle (settextError_zeroRows hzero) h,
    fun h1 h3 => ⟨fun hlong => exec_settext_err_of_rejected hidle (settextError_rowTooLong h1 h3 hlong) h,
      fun hfit => exec_settext_err_of_valid hidle (settextError_none.2 ⟨⟨h1, h3⟩, hfit⟩) h⟩⟩

/-- Settles O16: on an idle block a command raises its error or launches its packet, after latching its fields;
the error of a `SETTEXT` is that of its validation. -/
theorem commandsLatchOperandsAndErr : Obligations.CommandsLatchOperandsAndErr := by
  intro i o s t ho hidle h
  obtain ⟨built, hexec, hok⟩ := exec_command ho s
  have hsettext : ∀ p n, i = .settext p n → _ := fun p n hi => exec_settext_err hidle (hi ▸ h)
  rcases accept_next (hexec.symm.trans h) with ⟨hbusy, -⟩ | ⟨-, ⟨e, hraises, rfl⟩ | ⟨p, -, rfl⟩⟩
  · simp [hidle] at hbusy
  · refine ⟨rfl, rfl, fun hne => ?_, hsettext⟩
    obtain ⟨packet, rfl⟩ := hok hne
    cases hraises
  · exact ⟨rfl, rfl, fun _ => rfl, hsettext⟩

/-! ### Everything but the commands, and everything but the writes -/

/-- Settles O18: without a command nothing is raised and nothing launched; a write and a byte handed out leave
`PKT`, `ERR`, `OPR` and the codes. -/
theorem onlyCommandsWritePacketAndErr : Obligations.OnlyCommandsWritePacketAndErr := by
  intro i s t hno h
  rcases exec_next h with rfl | ⟨-, r, k, b, -, rfl⟩ | ⟨-, r, x, n, -, rfl⟩ | ⟨-, o, e, ho, -⟩ |
    ⟨-, o, p, ho, -⟩ | ⟨-, -, b, -, rfl⟩
  · exact ⟨rfl, rfl, rfl, rfl⟩
  · simp
  · simp
  · simp [hno] at ho
  · simp [hno] at ho
  · simp

theorem rowLen_writeCell (r : BitVec 2) (k : BitVec 6) (b : Byte) (s : State) :
    rowLen (writeCell r k b s) = rowLen s :=
  HostRun.rowLen_eq_of_registers (writeCell_rowlen0 r k b s) (writeCell_rowlen1 r k b s)
    (writeCell_rowlen2 r k b s)

theorem rowLen_handOut (b : Byte) (s : State) : rowLen (handOut b s) = rowLen s :=
  HostRun.rowLen_eq_of_registers (handOut_rowlen0 b s) (handOut_rowlen1 b s) (handOut_rowlen2 b s)

/-- Settles O19: of what an instruction can do, only the write of a cell changes the row buffer, and only the write
of a length a length. -/
theorem onlyWritesChangeRows : Obligations.OnlyWritesChangeRows := by
  intro i s t h
  rcases exec_next h with rfl | ⟨-, r, k, b, hi, rfl⟩ | ⟨-, r, x, n, hi, rfl⟩ | ⟨-, o, e, -, rfl⟩ |
    ⟨-, o, p, -, -, rfl⟩ | ⟨-, -, b, -, rfl⟩
  · exact ⟨fun _ => rfl, fun _ _ => rfl⟩
  · exact ⟨fun hne => absurd hi (hne r k b), fun _ => congrFun (rowLen_writeCell r k b s)⟩
  · exact ⟨fun _ => writeLen_rowbuf r n s, fun hne => absurd hi (hne r x n)⟩
  · exact ⟨fun _ => rfl, fun _ _ => rfl⟩
  · exact ⟨fun _ => rfl, fun _ _ => rfl⟩
  · exact ⟨fun _ => handOut_rowbuf b s, fun _ => congrFun (rowLen_handOut b s)⟩

/-! ### The hold while a packet is in flight -/

theorem acceptWrite_busy (hbusy : s.busy = true) (write : State → State) : acceptWrite write s = .next s :=
  if_pos hbusy

theorem accept_busy (hbusy : s.busy = true) (o : Opr) (built : Except NoPacket (List Byte)) :
    accept o built s = .next s :=
  if_pos hbusy

/-- Settles O20: a host operation is a write or a command, and both ports are held while `BUSY = 1`. -/
theorem hostOperationsWaitWhileBusy : Obligations.HostOperationsWaitWhileBusy := by
  intro i s hhost hbusy
  cases ho : commandOpr i with
  | some o =>
    obtain ⟨built, hexec, -⟩ := exec_command ho s
    exact hexec.trans (accept_busy hbusy o built)
  | none =>
    cases i with
    | wrch | wrlen => exact acceptWrite_busy hbusy _
    | pagesel | settext | reveal | clear => cases ho
    | wirePageSel | wireSetText1 | wireSetText2 | wireSetText3 | wireReveal | wireClear =>
      exact absurd rfl (hhost _)

/-! ### The wire rows -/

/-- A wire row is the transfer of the next byte of its own bytes. -/
theorem exec_eq_txPacketByte {bytes : List Byte} (he : encode i = .tx bytes) (s : State) :
    exec i s = txPacketByte bytes s := by
  cases i with
  | wrch | wrlen | pagesel | settext | reveal | clear => cases he
  | wirePageSel | wireSetText1 | wireSetText2 | wireSetText3 | wireReveal | wireClear => cases he; rfl

/-- The byte handed out, by whether `IDX` is the packet's last index (43 R130). -/
theorem handOut_eq (hbyte : s.idx.toNat < s.pkt.length) (b : Byte) :
    handOut b s = if s.idx.toNat = s.pkt.length - 1 then
        { s with txh := s.txh ++ [⟨b, true⟩], idx := 0, busy := false }
      else { s with txh := s.txh ++ [⟨b, false⟩], idx := s.idx + 1 } := by
  simp only [handOut, atLast_iff hbyte]

/-- Settles O22: the wire row of the packet in flight is the `TX` step, which hands out the byte at `IDX`. -/
theorem wireRowsHandOutNextByte : Obligations.WireRowsHandOutNextByte := by
  intro i bytes b s he hbusy hpkt hbyte
  subst hpkt
  rw [exec_wire he, txTransfer_offered hbusy hbyte, handOut_eq (List.getElem?_eq_some_iff.1 hbyte).1]

/-- Settles O23: `TX` offers the bytes of a wire row only while they are the packet in flight. -/
theorem wireRowsWaitForTheirPacket : Obligations.WireRowsWaitForTheirPacket := by
  intro i bytes s he hwait
  have hheld : ¬ (s.busy && s.pkt == bytes) = true := by
    rw [Bool.and_eq_true, beq_iff_eq]
    rintro ⟨hbusy, hpkt⟩
    exact hwait.elim (fun hidle => by simp [hidle] at hbusy) (absurd hpkt)
  rw [exec_eq_txPacketByte he, txPacketByte, if_neg hheld]

end Sys2Proof.Proofs.InstrFrames
end

section
/-! What one step comes to: for a chosen move the instruction it runs, and, whatever the move is, what it does to
block and records (10_state R18, 43 R130, 70 R190). -/

namespace Sys2Proof.Proofs.Steps
open Sys2Proof.Machine Sys2Proof.Laws Sys2Proof.Proofs.HostOps Sys2Proof.Proofs.InstrFrames

variable {s s' t u : State} {k : Nat} {rest : List HostOp}

/-! ### The chosen move -/

theorem runMove_port {op : PortOp} (hact : s.acts[k]? = some (.port op :: rest)) :
    runMove (.act k) s = portOp op k rest s := by
  simp only [runMove, hact]

/-- Settles O25: the move is the port operation, and the decoder of `WR` and of `CMD` cannot fail. -/
theorem stepRunsPresentedWord : Obligations.StepRunsPresentedWord := by
  intro s s' k rest w i hmove
  rw [step_eq_runMove hmove]
  refine ⟨fun hact hdecode => ?_, fun hact hdecode => ?_⟩
  · cases hdecode; exact runMove_port hact
  · cases hdecode; exact runMove_port hact

theorem txMove_of_decode {i : Instr} (hdecode : decode (.tx s.pkt) = .ok i) :
    txMove s = exec i (hostTakes s) := by
  simp only [txMove, hdecode]

/-- Settles O26: both ways of taking a byte are `txMove`, which is the decoded row by definition and the `TX` step
by `txMove_eq`. -/
theorem stepRunsPacketInFlight : Obligations.StepRunsPacketInFlight := by
  intro s s' k rest i hmove hdecode
  rw [step_eq_runMove hmove]
  refine ⟨fun hact => ?_, fun hact hbusy => ?_⟩
  · have hrun : runMove (.act k) s' = txMove (setAct k rest s') := runMove_port hact
    exact ⟨hrun.trans (txMove_of_decode hdecode), hrun.trans (txMove_eq _)⟩
  · have hrun : runMove (.act k) s' = txMove (if atLast s' then setAct k rest s' else s') :=
      (runMove_port hact).trans (if_pos hbusy)
    have hpkt : (if atLast s' then setAct k rest s' else s').pkt = s'.pkt := by split <;> rfl
    exact ⟨hrun.trans (txMove_of_decode (hpkt ▸ hdecode)), hrun.trans (txMove_eq _)⟩

/-- What a reset does to the session: it loses an open connection, if it tears a packet (70 R191). -/
theorem tearLink_session (s : State) : (tearLink s).session =
    if s.busy = true ∧ s.session.conn = .connected then
      { s.session with conn := .disconnected, lost := s.session.lost ++ s.session.handle.toList }
    else s.session := by
  unfold tearLink loseLink
  cases s.busy with
  | true => simp only [if_true, true_and]; split <;> rfl
  | false => simp

/-- Settles O27: the step is `resetBlock` after `tearLink`, and only the latter touches the session. -/
theorem rstResetsBlockInAnyState : Obligations.RstResetsBlockInAnyState := by
  intro s s' k rest hmove hact
  have hstep : step s = .next (resetBlock (tearLink (setAct k rest s'))) :=
    (step_eq_runMove hmove).trans (runMove_port hact)
  obtain ⟨⟨-, -, -, -, -, -, -, hbusy, -⟩, htxh, herrs, hparams, -, hsession⟩ := chooseMove_block hmove
  have hlink : (tearLink (setAct k rest s')).session = _ := tearLink_session _
  simp only [setAct_busy, setAct_session, hbusy, hsession] at hlink
  refine ⟨_, hstep, ⟨rfl, rfl, rfl, rfl, rfl, rfl, rfl, rfl, rfl⟩, ?_, ?_, ?_, fun hs => ?_, hlink⟩
  · simpa using htxh
  · simpa using herrs
  · simpa using hparams
  · rw [resetBlock_session, hlink]
    split
    · exact Conn.noConfusion
    · next hnot => exact fun hconn => hnot ⟨hs, hconn⟩

/-! ### Steps in which nothing can happen -/

theorem enabledActs_eq_nil {acts : List (List HostOp)}
    (hnone : ∀ op rest, op :: rest ∈ acts → opEnabled s op = false) : enabledActs s k acts = [] := by
  induction acts generalizing k with
  | nil => rfl
  | cons ops acts ih =>
    have hrest : enabledActs s (k + 1) acts = [] :=
      ih fun op rest hmem => hnone op rest (List.mem_cons_of_mem _ hmem)
    cases ops with
    | nil => exact hrest
    | cons op ops => rw [enabledActs, hnone op ops List.mem_cons_self, hrest]; rfl

/-- With no timer due and no operation that can happen, the state stays (log 3). -/
theorem step_of_nothing_enabled (htimer : timerDue s = false)
    (hnone : ∀ op rest, op :: rest ∈ s.acts → opEnabled s op = false) : step s = .next s := by
  have hmoves : enabledMoves s = [] := by
    rw [enabledMoves, htimer, enabledActs_eq_nil hnone]; rfl
  simp only [step, chooseMove, hmoves]

/-- Settles O28: `WR` and `CMD` are not ready while `BUSY = 1`, so no operation can happen. -/
theorem heldTransfersWaitForTx : Obligations.HeldTransfersWaitForTx := by
  intro s hbusy htimer hheld
  refine step_of_nothing_enabled (HostRun.timerDue_of_none htimer) fun op rest hmem => ?_
  rcases hheld _ hmem op rest rfl with ⟨w, rfl⟩ | ⟨w, rfl⟩
  · simp [opEnabled, portReady, wrReady, hbusy]
  · simp [opEnabled, portReady, cmdReady, hbusy]

/-! ### The effect of any step -/

/-- A step is one of four things, done in a state in which the host alone has moved on. -/
theorem step_cases (s : State) : ∃ u, HostOnly s u ∧
    (step s = .next u ∨ (stepResets s = true ∧ step s = .next (resetBlock u)) ∨
      (∃ j, (∀ bytes, encode j ≠ .tx bytes) ∧ step s = exec j u) ∨ step s = txTransfer u) := by
  cases hmove : chooseMove s with
  | none => exact ⟨s, HostOnly.refl s, .inl (by simp only [step, hmove])⟩
  | some ms =>
    obtain ⟨m, s'⟩ := ms
    have hchoice := chooseMove_hostOnly hmove
    rw [step_eq_runMove hmove]
    rcases runMove_cases m s' with ⟨hreset, u, hu, hrun⟩ |
      ⟨-, ⟨j, u, hu, hj, hrun⟩ | ⟨u, hu, hrun⟩ | ⟨u, hu, hrun⟩⟩
    · exact ⟨u, hchoice.trans hu, .inr (.inl ⟨by simpa only [stepResets, hmove] using hreset, hrun⟩)⟩
    · exact ⟨u, hchoice.trans hu, .inr (.inr (.inl ⟨j, hj, hrun⟩))⟩
    · exact ⟨u, hchoice.trans hu, .inr (.inr (.inr hrun))⟩
    · exact ⟨u, hchoice.trans hu, .inl hrun⟩

/-- What a step from `s` does to block and records, once the host has moved on to `u`. -/
inductive StepEffect (s u : State) : State → Prop
  | host : StepEffect s u u
  | reset (hreset : stepResets s = true) : StepEffect s u (resetBlock u)
  | cell (hidle : u.busy = false) (r : BitVec 2) (k : BitVec 6) (b : Byte) : StepEffect s u (writeCell r k b u)
  | length (hidle : u.busy = false) (r : BitVec 2) (n : BitVec 6) : StepEffect s u (writeLen r n u)
  | failed (hidle : u.busy = false) (o : Opr) (e : CmdError) : StepEffect s u (raise e (latch o u))
  | launched (hidle : u.busy = false) (o : Opr) {p : List Byte} (hp : isWirePacket p = true) :
      StepEffect s u (launch p (latch o u))
  | byte (hbusy : u.busy = true) {b : Byte} (hbyte : u.pkt[u.idx.toNat]? = some b) : StepEffect s u (handOut b u)

theorem step_effect (h : step s = .next t) : ∃ u, HostOnly s u ∧ StepEffect s u t := by
  obtain ⟨u, hu, hstep | ⟨hreset, hstep⟩ | ⟨j, hj, hstep⟩ | hstep⟩ := step_cases s
  · cases hstep.symm.trans h; exact ⟨t, hu, .host⟩
  · cases hstep.symm.trans h; exact ⟨u, hu, .reset hreset⟩
  · refine ⟨u, hu, ?_⟩
    rcases exec_next (hstep.symm.trans h) with rfl | ⟨hidle, r, k, b, -, rfl⟩ | ⟨hidle, r, x, n, -, rfl⟩ |
      ⟨hidle, o, e, -, rfl⟩ | ⟨hidle, o, p, -, hp, rfl⟩ | ⟨-, htx, -⟩
    · exact .host
    · exact .cell hidle r k b
    · exact .length hidle r n
    · exact .failed hidle o e
    · exact .launched hidle o hp
    · exact absurd htx (hj _)
  · rcases txTransfer_next (hstep.symm.trans h) with ⟨-, rfl⟩ | ⟨hbusy, b, hbyte, rfl⟩
    · exact ⟨t, hu, .host⟩
    · exact ⟨u, hu, .byte hbusy hbyte⟩

/-- Settles O29: of the effects that a step can have while `BUSY = 1` only a reset writes the packet, the rows,
`OPR` or `ERR`. -/
theorem nothingChangesUnderAPacket : Obligations.NothingChangesUnderAPacket := by
  intro s t hbusy hnoReset h
  obtain ⟨u, ⟨⟨hrowbuf, hlen0, hlen1, hlen2, hopr, hpkt, -, hbusy', herr⟩, -, herrs, -⟩, heffect⟩ := step_effect h
  rw [hbusy] at hbusy'
  cases heffect with
  | host => exact ⟨hpkt, hrowbuf, hlen0, hlen1, hlen2, hopr, herr, herrs⟩
  | byte _ _ =>
    simp only [handOut_pkt, handOut_rowbuf, handOut_rowlen0, handOut_rowlen1, handOut_rowlen2, handOut_opr,
      handOut_err, handOut_errs]
    exact ⟨hpkt, hrowbuf, hlen0, hlen1, hlen2, hopr, herr, herrs⟩
  | reset hreset => simp [hnoReset] at hreset
  | cell hidle | length hidle | failed hidle | launched hidle => simp [hbusy'] at hidle

/-- Settles O30: only the hand-out of a byte adds to `TXH`, and it is the byte that `TX` offers. -/
theorem stepAddsOnlyTheOfferedByte : Obligations.StepAddsOnlyTheOfferedByte := by
  intro s t h
  obtain ⟨u, ⟨⟨-, -, -, -, -, hpkt, hidx, hbusy', -⟩, htxh, -⟩, heffect⟩ := step_effect h
  cases heffect with
  | host | reset | failed | launched => exact .inl htxh
  | cell _ r k b => exact .inl ((writeCell_txh r k b u).trans htxh)
  | length _ r n => exact .inl ((writeLen_txh r n u).trans htxh)
  | @byte hbusy b hbyte =>
    have hlast : atLast u = txLast s := by rw [txLast, atLast, atLast, hidx, hpkt]
    refine .inr ⟨hbusy'.symm.trans hbusy, b, ?_, ?_⟩
    · rw [txData, ← hpkt, ← hidx, hbyte]
    · rw [handOut_txh, htxh, hlast]

/-- Settles O31: neither the host's move nor any effect of a step writes the parameters. -/
theorem parametersNeverChange : Obligations.ParametersNeverChange := by
  intro s t h
  obtain ⟨u, ⟨-, -, -, hparams⟩, heffect⟩ := step_effect h
  rw [← hparams]
  cases heffect with
  | host | reset | failed | launched => rfl
  | cell _ r k b => exact writeCell_params r k b u
  | length _ r n => exact writeLen_params r n u
  | byte => exact handOut_params _ u

theorem txTransfer_not_refused (s : State) (x : Refusal) : txTransfer s ≠ .refused x := by
  intro h
  unfold txTransfer at h
  split at h
  · split at h <;> cases h
  · cases h

/-- Settles O32: neither an instruction nor the `TX` step is refused, and any other step answers a state. -/
theorem noStepIsRefused : Obligations.NoStepIsRefused := by
  intro s x h
  obtain ⟨u, -, hstep | ⟨-, hstep⟩ | ⟨j, -, hstep⟩ | hstep⟩ := step_cases s
  · cases hstep.symm.trans h
  · cases hstep.symm.trans h
  · exact exec_not_refused j u x (hstep.symm.trans h)
  · exact txTransfer_not_refused u x (hstep.symm.trans h)

end Sys2Proof.Proofs.Steps
end

section
/-! The two invariants: of the block (10_state R11, R14, R15, 60 R173), and of the transmit history (43 R131,
R133, 70 R191). -/

namespace Sys2Proof.Proofs.Invariants
open Sys2Proof.Machine Sys2Proof.Laws Sys2Proof.Proofs.TxStep Sys2Proof.Proofs.Steps

variable {s t u : State}

/-! ### The block -/

/-- Settles O35: the row buffer and `PKT` are empty, nothing is in flight and `ERR` is 0. -/
theorem invAtReset : Obligations.InvAtReset where
  memory := reset_memory_wf
  packet := .inl rfl
  offered := fun hbusy => absurd hbusy Bool.false_ne_true
  idle := fun _ => rfl
  failed := fun herr => absurd rfl herr

theorem blockInv_of_sameBlock (h : SameBlock s u) (hinv : BlockInv s) : BlockInv u := by
  obtain ⟨hrowbuf, -, -, -, -, hpkt, hidx, hbusy, herr⟩ := h
  obtain ⟨hmemory, hpacket, hoffered, hidle, hfailed⟩ := hinv
  constructor
  · rwa [hrowbuf]
  · rwa [hpkt]
  · rwa [hbusy, hidx, hpkt]
  · rwa [hbusy, hidx]
  · rwa [herr, hpkt, hbusy]

theorem packet_length_bounds {p : List Byte} (hp : isWirePacket p = true) : 0 < p.length ∧ p.length ≤ 128 := by
  have hlen := wirePacket_length hp
  simp only [List.mem_cons, List.not_mem_nil, or_false] at hlen
  omega

/-- The packet in flight is one of the table's formats (43 R133). -/
theorem blockInv_packet_inFlight (hinv : BlockInv u) (hbusy : u.busy = true) : isWirePacket u.pkt = true := by
  refine hinv.packet.resolve_left fun hempty => ?_
  have hoffered := hinv.offered hbusy
  simp [hempty] at hoffered

/-- `IDX` has room for every byte of a packet, so counting on does not wrap. -/
theorem idx_succ_toNat (hbyte : u.idx.toNat < u.pkt.length) (hlen : u.pkt.length ≤ 128) :
    (u.idx + 1).toNat = u.idx.toNat + 1 := by
  rw [BitVec.toNat_add]
  exact Nat.mod_eq_of_lt (by simp; omega)

theorem handOut_keepsInv (hinv : BlockInv u) (hbusy : u.busy = true) (b : Byte) : BlockInv (handOut b u) := by
  have hoffered := hinv.offered hbusy
  have hpacket := blockInv_packet_inFlight hinv hbusy
  have hok : u.err = errOk := by
    by_contra hne
    obtain ⟨-, hidle⟩ := hinv.failed hne
    simp [hbusy] at hidle
  constructor
  · rw [handOut_rowbuf]; exact hinv.memory
  · rw [handOut_pkt]; exact hinv.packet
  · intro hstill
    by_cases hlast : atLast u = true
    · simp [handOut_atLast hlast b] at hstill
    · have hmore : u.idx.toNat + 1 ≠ u.pkt.length := by rwa [atLast, beq_iff_eq] at hlast
      obtain ⟨hidx, -⟩ := handOut_not_atLast hlast b
      rw [hidx, handOut_pkt, idx_succ_toNat hoffered (packet_length_bounds hpacket).2]
      omega
  · intro hidle
    by_cases hlast : atLast u = true
    · exact (handOut_atLast hlast b).1
    · simp [handOut_not_atLast hlast b, hbusy] at hidle
  · intro herr
    rw [handOut_err] at herr
    exact absurd hok herr

/-- A launched packet is well formed and `IDX` 0 is inside it; a failed command leaves nothing. -/
theorem stepEffect_keepsInv (heffect : StepEffect s u t) (hinv : BlockInv u) : BlockInv t := by
  cases heffect with
  | host => exact hinv
  | reset =>
    exact ⟨rfl, .inl rfl, fun hbusy => absurd hbusy Bool.false_ne_true, fun _ => rfl, fun herr => absurd rfl herr⟩
  | cell _ r k b =>
    obtain ⟨hmemory, hpacket, hoffered, hidle, hfailed⟩ := hinv
    exact ⟨writeCell_wf r k b hmemory, by simpa, by simpa, by simpa, by simpa⟩
  | length _ r n =>
    obtain ⟨hmemory, hpacket, hoffered, hidle, hfailed⟩ := hinv
    exact ⟨by simpa, by simpa, by simpa, by simpa, by simpa⟩
  | failed _ o e =>
    exact ⟨hinv.memory, .inl rfl, fun hbusy => absurd hbusy Bool.false_ne_true, fun _ => rfl, fun _ => ⟨rfl, rfl⟩⟩
  | launched _ o hp =>
    exact ⟨hinv.memory, .inr hp, fun _ => (packet_length_bounds hp).1, fun _ => rfl, fun herr => absurd rfl herr⟩
  | byte hbusy _ => exact handOut_keepsInv hinv hbusy _

/-- Settles O36: the host's move leaves the block, and each effect of a step keeps the invariant. -/
theorem stepKeepsInv : Obligations.StepKeepsInv := by
  intro s t hinv h
  obtain ⟨u, ⟨hblock, -⟩, heffect⟩ := step_effect h
  exact stepEffect_keepsInv heffect (blockInv_of_sameBlock hblock hinv)

/-! ### The transmit history -/

/-- Settles O37: `TXH` is empty and nothing is in flight. -/
theorem wholePacketsAtReset : Obligations.WholePacketsAtReset :=
  ⟨[], fun _ hp => absurd hp List.not_mem_nil, rfl⟩

/-- A whole packet in the history: every byte but the last unmarked. -/
theorem marked_append_last (bs : List Byte) (b : Byte) :
    marked (bs ++ [b]) = bs.map (fun c => ⟨c, false⟩) ++ [⟨b, true⟩] := by
  induction bs with
  | nil => rfl
  | cons c bs ih =>
    rw [List.map_cons, List.cons_append, List.cons_append, ← ih]
    cases bs <;> rfl

theorem inFlight_of_idle (hidle : u.busy = false) : inFlight u = [] := by
  simp [inFlight, hidle]

/-- Where nothing more is in flight and `TXH` stays, the history is still whole packets. -/
theorem wholePackets_of_idle (hwhole : WholePackets u) (hidle : u.busy = false) (htxh : t.txh = u.txh)
    (hnone : inFlight t = []) : WholePackets t := by
  obtain ⟨packets, hpackets, hu⟩ := hwhole
  exact ⟨packets, hpackets, by rw [htxh, hu, inFlight_of_idle hidle, hnone]⟩

theorem wholePackets_of_hostOnly (h : HostOnly s u) (hwhole : WholePackets s) : WholePackets u := by
  obtain ⟨⟨-, -, -, -, -, hpkt, hidx, hbusy, -⟩, htxh, -⟩ := h
  rwa [WholePackets, htxh, inFlight, hbusy, hpkt, hidx]

/-- A byte handed out completes the packet in flight, or is one more byte of it. -/
theorem handOut_keepsWholePackets (hinv : BlockInv u) (hwhole : WholePackets u) (hbusy : u.busy = true)
    {b : Byte} (hbyte : u.pkt[u.idx.toNat]? = some b) : WholePackets (handOut b u) := by
  obtain ⟨packets, hpackets, hu⟩ := hwhole
  have hpacket := blockInv_packet_inFlight hinv hbusy
  have htaken : u.pkt.take (u.idx.toNat + 1) = u.pkt.take u.idx.toNat ++ [b] := by
    rw [List.take_add_one, hbyte]; rfl
  have hsent : u.txh = packets.flatMap marked ++ (u.pkt.take u.idx.toNat).map (fun c => ⟨c, false⟩) := by
    rw [hu, inFlight, if_pos hbusy]
  by_cases hlast : atLast u = true
  · have hall : u.pkt = u.pkt.take u.idx.toNat ++ [b] := by
      rw [atLast, beq_iff_eq] at hlast
      rw [← htaken, hlast, List.take_length]
    refine ⟨packets ++ [u.pkt], fun p hp => ?_, ?_⟩
    · rcases List.mem_append.1 hp with hp | hp
      · exact hpackets p hp
      · rwa [List.mem_singleton.1 hp]
    · have hmarked : marked u.pkt = (u.pkt.take u.idx.toNat).map (fun c => ⟨c, false⟩) ++ [⟨b, true⟩] := by
        rw [← marked_append_last, ← hall]
      rw [handOut_txh, hlast, hsent, inFlight_of_idle (handOut_atLast hlast b).2]
      simp [hmarked]
  · obtain ⟨hidx, hbusy'⟩ := handOut_not_atLast hlast b
    have hnext := idx_succ_toNat (hinv.offered hbusy) (packet_length_bounds hpacket).2
    refine ⟨packets, hpackets, ?_⟩
    rw [handOut_txh, hsent, Bool.eq_false_iff.2 hlast, inFlight, hbusy', if_pos hbusy, handOut_pkt, hidx, hnext,
      htaken]
    simp

/-- Settles O38: a byte handed out is the one effect that adds to `TXH`; a command is accepted, and a reset comes,
only with nothing in flight. -/
theorem stepKeepsWholePackets : Obligations.StepKeepsWholePackets := by
  intro s t hinv hwhole hnoReset h
  obtain ⟨u, hu, heffect⟩ := step_effect h
  have hwhole' := wholePackets_of_hostOnly hu hwhole
  have hinv' := blockInv_of_sameBlock hu.1 hinv
  cases heffect with
  | host => exact hwhole'
  | reset hreset =>
    have hidle : u.busy = false := by
      obtain ⟨⟨-, -, -, -, -, -, -, hbusy, -⟩, -⟩ := hu
      rw [hbusy, ← Bool.not_eq_true]
      intro hs
      simp [hnoReset hs] at hreset
    exact wholePackets_of_idle hwhole' hidle rfl rfl
  | cell hidle r k b =>
    exact wholePackets_of_idle hwhole' hidle (writeCell_txh r k b u) (inFlight_of_idle (by simpa))
  | length hidle r n =>
    exact wholePackets_of_idle hwhole' hidle (writeLen_txh r n u) (inFlight_of_idle (by simpa))
  | failed hidle o e => exact wholePackets_of_idle hwhole' hidle rfl rfl
  | launched hidle o hp => exact wholePackets_of_idle hwhole' hidle rfl rfl
  | byte hbusy hbyte => exact handOut_keepsWholePackets hinv' hwhole' hbusy hbyte

end Sys2Proof.Proofs.Invariants
end

section
/-! What a `SETTEXT` reads: the cell it faults on, and that nothing but its rows and the parameters decides its
packet (43 R124, R125, 60 R176, 92 D21). -/

namespace Sys2Proof.Proofs.SetTextReads
open Sys2Proof.Machine Sys2Proof.Laws Sys2Proof.Proofs.PacketBuilder Sys2Proof.Proofs.SetTextErrors
  Sys2Proof.Proofs.InstrFrames Sys2Proof.Proofs.Steps

variable {s s' : State} {n : BitVec 3} {f : Fault}

/-! ### The cells of a row -/

/-- A read that fails has met a cell that holds no value. -/
theorem readCells_error {m : Memory} {r k n : Nat} (h : readCells m r k n = .error f) :
    ∃ j < n, f = .unwrittenCell r (k + j) ∧ memRead m (cellAddr r (k + j)) = none := by
  induction n generalizing k with
  | zero => cases h
  | succ n ih =>
    unfold readCells at h
    split at h
    · next hnone => cases h; exact ⟨0, Nat.succ_pos n, rfl, hnone⟩
    · split at h
      · next hlater =>
        cases h
        obtain ⟨j, hj, hf, hnone⟩ := ih hlater
        rw [Nat.add_right_comm] at hf hnone
        exact ⟨j + 1, Nat.succ_lt_succ hj, hf, hnone⟩
      · cases h

theorem readCells_congr {m m' : Memory} {r k n : Nat}
    (h : ∀ j < n, memRead m' (cellAddr r (k + j)) = memRead m (cellAddr r (k + j))) :
    readCells m' r k n = readCells m r k n := by
  induction n generalizing k with
  | zero => rfl
  | succ n ih =>
    have hfirst : memRead m' (cellAddr r k) = memRead m (cellAddr r k) := h 0 (Nat.succ_pos n)
    have hlater : readCells m' r (k + 1) n = readCells m r (k + 1) n := ih fun j hj => by
      rw [Nat.add_right_comm]
      exact h (j + 1) (Nat.succ_lt_succ hj)
    simp only [readCells, hfirst, hlater]

theorem rowText_error {r : Fin 3} (h : rowText s r = .error f) : ∃ k < (rowLen s r).toNat,
    f = .unwrittenCell r.val k ∧ memRead s.rowbuf (cellAddr r.val k) = none := by
  simpa only [Nat.zero_add] using readCells_error h

theorem rowText_of_cells {r : Fin 3}
    (hcells : ∀ k < (rowLen s r).toNat, (memRead s.rowbuf (cellAddr r.val k)).isSome = true) :
    ∃ t, rowText s r = .ok t := by
  cases htext : rowText s r with
  | ok t => exact ⟨t, rfl⟩
  | error f =>
    obtain ⟨k, hk, -, hnone⟩ := rowText_error htext
    have hsome := hcells k hk
    simp [hnone] at hsome

theorem rowText_congr {r : Fin 3} (hlen : rowLen s' r = rowLen s r)
    (hcells : ∀ k < (rowLen s r).toNat,
      memRead s'.rowbuf (cellAddr r.val k) = memRead s.rowbuf (cellAddr r.val k)) :
    rowText s' r = rowText s r := by
  rw [rowText, rowText, hlen]
  exact readCells_congr (by simpa only [Nat.zero_add] using hcells)

/-! ### The fault on an unwritten cell -/

/-- The row blocks fault with the first of their rows that does. -/
theorem rowBlocks_faults {m : Nat} (hm : m ≤ 3) {r : Fin 3} (hfaults : rowText s r = .error f) :
    ∀ {rs : List (Fin 3)}, (∀ q ∈ rs, q.val < m) → rs.Pairwise (· < ·) → r ∈ rs →
      (∀ q < r, ∃ t, rowText s q = .ok t) → rowBlocks s m rs = .error (.faults f)
  | [], _, _, hr, _ => absurd hr List.not_mem_nil
  | q :: rs, hrows, hrising, hr, hbefore => by
    obtain ⟨hq, hrows'⟩ := List.forall_mem_cons.1 hrows
    obtain ⟨hlt, hrising'⟩ := List.pairwise_cons.1 hrising
    rcases List.mem_cons.1 hr with rfl | hr'
    · simp only [rowBlocks, hfaults]
    · obtain ⟨t, ht⟩ := hbefore q (hlt r hr')
      have hlater := rowBlocks_faults hm hfaults hrows' hrising' hr' hbefore
      simp only [rowBlocks, ht, rowBlock_eq s.params t hq hm, hlater]

theorem requestRows_rising (n : BitVec 3) : (requestRows n).Pairwise (· < ·) :=
  List.Pairwise.filter _ (by decide)

/-- A request that passes validation and has a row that faults, the rows before it being written. -/
theorem setTextPacket_faults (hcheck : settextError s n = none) {r : Fin 3} (hr : r.val < n.toNat)
    (hfaults : rowText s r = .error f) (hbefore : ∀ q < r, ∃ t, rowText s q = .ok t) :
    setTextPacket s n = .error (.faults f) := by
  obtain ⟨⟨h1, h3⟩, -⟩ := settextError_none.1 hcheck
  obtain ⟨code, hcode, -⟩ := rowCode_of_rows h1 h3
  have hblocks : rowBlocks s n.toNat (requestRows n) = .error (.faults f) :=
    rowBlocks_faults h3 hfaults (fun _ => mem_requestRows.1) (requestRows_rising n) (mem_requestRows.2 hr) hbefore
  simp only [setTextPacket, hcheck, hcode, hblocks]

theorem exec_settext_faults (hidle : s.busy = false) (p : BitVec 12)
    (hfaults : setTextPacket s n = .error (.faults f)) : exec (.settext p n) s = .fault f := by
  change accept ⟨0b01, p, n⟩ (setTextPacket s n) s = _
  simp [accept, hidle, hfaults]

/-- Settles O14: the rows before `r` are written, and row `r` is read up to cell `k`. -/
theorem settextFaultsOnUnwrittenCell : Obligations.SettextFaultsOnUnwrittenCell := by
  intro p n s r k hidle h3 hfit hr hk hnone hbefore
  have hrow : rowText s r = .error (.unwrittenCell r.val k) := by
    have hread := readCells_fault (m := s.rowbuf) (r := r.val) (k := 0) hk
    simp only [Nat.zero_add] at hread
    exact hread (fun j hj => hbefore r j (hj.trans hk) (.inr ⟨rfl, hj⟩)) hnone
  exact exec_settext_faults hidle p (setTextPacket_faults (settextError_none.2 ⟨⟨by omega, h3⟩, hfit⟩) hr hrow
    fun q hq => rowText_of_cells fun j hj => hbefore q j hj (.inl hq))

/-! ### No other fault -/

theorem rowBlocks_faults_inv {m : Nat} :
    ∀ {rs : List (Fin 3)}, rowBlocks s m rs = .error (.faults f) → ∃ r ∈ rs, rowText s r = .error f
  | [], h => by cases h
  | r :: rs, h => by
    unfold rowBlocks at h
    split at h
    · next hf => cases h; exact ⟨r, List.mem_cons_self, hf⟩
    · split at h
      · cases h
      · split at h
        · next hlater =>
          obtain ⟨q, hq, hf⟩ := rowBlocks_faults_inv (hlater.trans h)
          exact ⟨q, List.mem_cons_of_mem r hq, hf⟩
        · cases h

theorem setTextPacket_faults_inv (h : setTextPacket s n = .error (.faults f)) :
    RowsFit s n ∧ ∃ r : Fin 3, r.val < n.toNat ∧ rowText s r = .error f := by
  unfold setTextPacket at h
  split at h
  · cases h
  · cases h
  · next hcheck _ =>
    split at h
    · next hblocks =>
      obtain ⟨r, hr, hf⟩ := rowBlocks_faults_inv (hblocks.trans h)
      exact ⟨(settextError_none.1 hcheck).2, r, mem_requestRows.1 hr, hf⟩
    · cases h

theorem accept_fault {o : Opr} {built : Except NoPacket (List Byte)} (h : accept o built s = .fault f) :
    built = .error (.faults f) := by
  unfold accept at h
  split at h
  · cases h
  · split at h
    · cases h
    · cases h
    · cases h; rfl

/-- Of the host operations only a `SETTEXT` can fault. -/
theorem exec_fault {j : Instr} (hj : ∀ bytes, encode j ≠ .tx bytes) (h : exec j s = .fault f) :
    ∃ n, setTextPacket s n = .error (.faults f) := by
  cases ho : commandOpr j with
  | some o =>
    obtain ⟨built, hexec, hok⟩ := exec_command ho s
    have hbuilt := accept_fault (hexec.symm.trans h)
    by_cases hsettext : ∃ p n, j = .settext p n
    · obtain ⟨p, n, rfl⟩ := hsettext
      exact ⟨n, accept_fault (built := setTextPacket s n) h⟩
    · obtain ⟨packet, rfl⟩ := hok fun p n hne => hsettext ⟨p, n, hne⟩
      cases hbuilt
  | none =>
    cases j with
    | wrch | wrlen =>
      cases hbusy : s.busy with
      | false => cases (acceptWrite_idle hbusy _).symm.trans h
      | true => cases (acceptWrite_busy hbusy _).symm.trans h
    | pagesel | settext | reveal | clear => cases ho
    | wirePageSel | wireSetText1 | wireSetText2 | wireSetText3 | wireReveal | wireClear => exact absurd rfl (hj _)

theorem txTransfer_fault (h : txTransfer s = .fault f) : s.busy = true ∧ s.pkt[s.idx.toNat]? = none := by
  unfold txTransfer at h
  split at h
  · next hbusy =>
    split at h
    · cases h
    · next hnone => exact ⟨hbusy, hnone⟩
  · cases h

/-- Settles O33: the invariant rules out a packet with no byte at `IDX`, and a `SETTEXT` that passes validation
reads only cells of the row buffer. -/
theorem onlyUnwrittenCellsFault : Obligations.OnlyUnwrittenCellsFault := by
  intro s f hinv h
  obtain ⟨u, ⟨hblock, -⟩, hstep | ⟨-, hstep⟩ | ⟨j, hj, hstep⟩ | hstep⟩ := step_cases s
  · cases hstep.symm.trans h
  · cases hstep.symm.trans h
  · obtain ⟨n, hfaults⟩ := exec_fault hj (hstep.symm.trans h)
    obtain ⟨hfit, r, hr, hrow⟩ := setTextPacket_faults_inv hfaults
    obtain ⟨k, hk, rfl, hnone⟩ := rowText_error hrow
    have hlen := hfit r hr
    exact ⟨r.val, k, rfl, Nat.le_of_lt_succ r.isLt, by omega, hblock.1 ▸ hnone⟩
  · obtain ⟨hbusy, hnone⟩ := txTransfer_fault (hstep.symm.trans h)
    have hoffered := (Invariants.blockInv_of_sameBlock hblock hinv).offered hbusy
    rw [List.getElem?_eq_getElem hoffered] at hnone
    cases hnone

/-! ### What the packet depends on -/

theorem settextError_congr (hlens : ∀ r : Fin 3, r.val < n.toNat → rowLen s' r = rowLen s r) :
    settextError s' n = settextError s n := by
  have hany : (requestRows n).any (fun r => decide (rowWidth < (rowLen s' r).toNat)) =
      (requestRows n).any (fun r => decide (rowWidth < (rowLen s r).toNat)) := by
    rw [Bool.eq_iff_iff, List.any_eq_true, List.any_eq_true]
    refine exists_congr fun r => and_congr_right fun hr => ?_
    rw [hlens r (mem_requestRows.1 hr)]
  simp only [settextError, hany]

theorem rowBlocks_congr {m : Nat} (hparams : s'.params = s.params) :
    ∀ {rs : List (Fin 3)}, (∀ r ∈ rs, rowText s' r = rowText s r) → rowBlocks s' m rs = rowBlocks s m rs
  | [], _ => rfl
  | r :: rs, h => by
    obtain ⟨hr, hrs⟩ := List.forall_mem_cons.1 h
    simp only [rowBlocks, hr, hparams, rowBlocks_congr hparams hrs]

theorem setTextPacket_congr (hparams : s'.params = s.params)
    (hlens : ∀ r : Fin 3, r.val < n.toNat → rowLen s' r = rowLen s r)
    (htexts : ∀ r : Fin 3, r.val < n.toNat → rowText s' r = rowText s r) :
    setTextPacket s' n = setTextPacket s n := by
  have hblocks : rowBlocks s' n.toNat (requestRows n) = rowBlocks s n.toNat (requestRows n) :=
    rowBlocks_congr hparams fun r hr => htexts r (mem_requestRows.1 hr)
  simp only [setTextPacket, settextError_congr hlens, hblocks]

/-- Settles O15: the two states build the same packet or raise the same error. -/
theorem settextReadsOnlyItsRows : Obligations.SettextReadsOnlyItsRows := by
  intro n p p' s s' t hidle hidle' hparams hrows h
  have hsame : setTextPacket s' n = setTextPacket s n :=
    setTextPacket_congr hparams (fun r hr => (hrows r hr).1) fun r hr =>
      rowText_congr (hrows r hr).1 (hrows r hr).2
  rcases accept_next (built := setTextPacket s n) h with ⟨hbusy, -⟩ | ⟨-, ⟨e, he, rfl⟩ | ⟨packet, hp, rfl⟩⟩
  · simp [hidle] at hbusy
  · exact ⟨_, exec_settext_rejected hidle' p' (setTextPacket_raises_iff.1 (hsame.trans he)), rfl, rfl⟩
  · exact ⟨_, exec_settext_idle hidle' p' (hsame.trans hp), rfl, rfl⟩

end Sys2Proof.Proofs.SetTextReads
end

section
/-! The packet of a `SETTEXT` whose request is ready, byte by byte (43 R125, R126, R132). -/

namespace Sys2Proof.Proofs.SetTextBytes
open Sys2Proof.Machine Sys2Proof.Laws Sys2Proof.Proofs.PacketBuilder Sys2Proof.Proofs.RowPlacement
  Sys2Proof.Proofs.SetTextPacket

variable {s t : State} {n : BitVec 3} {p : BitVec 12}

/-! ### Blocks of one length, one after the other -/

section
variable {α β : Type} {f : α → List β} {w : Nat}

theorem length_flatMap_blocks {l : List α} (hw : ∀ a ∈ l, (f a).length = w) :
    (l.flatMap f).length = w * l.length := by
  rw [List.length_flatMap, List.map_congr_left hw, List.map_const', List.sum_replicate, smul_eq_mul, Nat.mul_comm]

theorem getElem?_flatMap_blocks {l : List α} (hw : ∀ a ∈ l, (f a).length = w) {i j : Nat} (hj : j < w) {a : α}
    (hi : l[i]? = some a) : (l.flatMap f)[w * i + j]? = (f a)[j]? := by
  induction l generalizing i with
  | nil => simp at hi
  | cons b l ih =>
    obtain ⟨hb, hl⟩ := List.forall_mem_cons.1 hw
    rw [List.flatMap_cons]
    cases i with
    | zero =>
      obtain rfl : b = a := by simpa using hi
      rw [Nat.mul_zero, Nat.zero_add, List.getElem?_append_left (hb ▸ hj)]
    | succ i =>
      have hskip : w * (i + 1) + j - (f b).length = w * i + j := by rw [hb, Nat.mul_succ]; omega
      rw [List.getElem?_append_right (by rw [hb, Nat.mul_succ]; omega), hskip]
      exact ih hl (by simpa using hi)

end

/-! ### The bytes of a row block -/

/-- The seven bytes of a row block around its text (43 R126). -/
theorem builtBlock_frame (q : Params) (i n : Nat) {text : List Byte} (hlen : text.length ≤ 35) :
    ∀ block, block = rowBlockBytes (builtBlock q i n text) →
      block[0]? = some 0x02 ∧ block[1]? = some (slotOf n i) ∧ block[2]? = some 0x0D ∧ block[3]? = some 0x0B ∧
      block[4]? = some 0x0B ∧ block[40]? = some (frameByte q byteLF) ∧ block[41]? = some (frameByte q byteLF) := by
  rintro _ rfl
  have htext : (encText q (pad q text)).length = 35 := by rw [encText_length, pad_length q hlen]
  refine ⟨rfl, rfl, rfl, rfl, rfl, ?_, ?_⟩
  · simp [rowBlockBytes, builtBlock, htext]
  · simp [rowBlockBytes, builtBlock, htext]

/-- The text bytes of a row block begin at its byte 5. -/
theorem builtBlock_text (q : Params) (i n : Nat) {text : List Byte} (hlen : text.length ≤ 35) {j : Nat}
    (hj : j < 35) :
    (rowBlockBytes (builtBlock q i n text))[5 + j]? =
      (pad q text)[j]?.map fun c => par q.parityMode (remap q c) := by
  have htext : (encText q (pad q text)).length = 35 := by rw [encText_length, pad_length q hlen]
  have hskip : (rowBlockBytes (builtBlock q i n text))[5 + j]? =
      (encText q (pad q text) ++ [frameByte q byteLF, frameByte q byteLF])[j]? := by
    rw [Nat.add_comm]; rfl
  rw [hskip, List.getElem?_append_left (htext ▸ hj), encText, List.getElem?_map]

/-- `PAD` keeps the text together, after `leftPad` pad bytes (41 R90). -/
theorem pad_getElem?_text (q : Params) {text : List Byte} {k : Nat} (hk : k < text.length) :
    (pad q text)[leftPad text.length + k]? = some text[k] := by
  simp [pad, List.getElem?_append, hk]

theorem pad_getElem?_outside (q : Params) {text : List Byte} {j : Nat} (hj : j < 35)
    (hout : j < leftPad text.length ∨ leftPad text.length + text.length ≤ j) :
    (pad q text)[j]? = some q.padByte := by
  simp only [pad]
  rcases hout with hleft | hright
  · rw [List.append_assoc, List.getElem?_append_left (by rwa [List.length_replicate]),
      List.getElem?_replicate_of_lt hleft]
  · have hpast : (List.replicate (leftPad text.length) q.padByte ++ text).length ≤ j := by simpa using hright
    rw [List.getElem?_append_right hpast, List.getElem?_replicate_of_lt]
    simp only [List.length_append, List.length_replicate, rowWidth]
    omega

/-! ### The packet -/

theorem requestRow_getElem? {r : Fin 3} (hr : r.val < n.toNat) :
    (([0, 1, 2] : List (Fin 3)).take n.toNat)[r.val]? = some r := by
  rw [List.getElem?_take_of_lt hr]
  fin_cases r <;> rfl

/-- What an idle block builds from a ready request: its rows `ts` and, behind two bytes, their blocks. -/
theorem exec_settext_ready (hidle : s.busy = false) (p : BitVec 12) (hready : RequestReady s n) :
    ∃ (ts : Fin 3 → List Byte) (code : Byte),
      (∀ r : Fin 3, r.val < n.toNat → rowText s r = .ok (ts r) ∧ (ts r).length ≤ 35) ∧
      [(0xC7 : Byte), 0x8C, 0x9B][n.toNat - 1]? = some code ∧
      exec (.settext p n) s = .next (launch (0x8F :: code :: (([0, 1, 2] : List (Fin 3)).take n.toNat).flatMap
        fun r => rowBlockBytes (builtBlock s.params r.val n.toNat (ts r))) (latch ⟨0b01, p, n⟩ s)) := by
  obtain ⟨⟨h1, h3⟩, hfit, hwritten⟩ := hready
  have hread : ∀ r : Fin 3, ∃ text, r.val < n.toNat → rowText s r = .ok text := fun r => by
    by_cases hr : r.val < n.toNat
    · obtain ⟨text, htext⟩ := rowText_of_written hwritten hr
      exact ⟨text, fun _ => htext⟩
    · exact ⟨[], fun h => absurd h hr⟩
  choose ts hts using hread
  obtain ⟨code, hcode, -⟩ := rowCode_of_rows h1 h3
  rw [rowCode_eq_getElem? h1 h3] at hcode
  have hpacket := setTextPacket_of_rowTexts (settextError_none.2 ⟨⟨h1, h3⟩, hfit⟩) hts
  rw [hcode] at hpacket
  exact ⟨ts, code, fun r hr => ⟨hts r hr, (rowText_length hfit hr (hts r hr)).2⟩, hcode,
    exec_settext_idle hidle p hpacket⟩

theorem rows_below {r : Fin 3} (hr : r ∈ ([0, 1, 2] : List (Fin 3)).take n.toNat) : r.val < n.toNat :=
  mem_requestRows.1 (requestRows_eq_take n ▸ hr)

/-- Settles O6: the launched packet has two bytes and a block of 42 bytes per row. -/
theorem settextAcceptsReadyRequest : Obligations.SettextAcceptsReadyRequest := by
  intro p n s hidle hready
  obtain ⟨ts, code, hts, hcode, hexec⟩ := exec_settext_ready hidle p hready
  obtain ⟨⟨-, h3⟩, -⟩ := hready
  refine ⟨_, hexec, rfl, ?_, rfl, hcode.symm⟩
  rw [launch_pkt, List.length_cons, List.length_cons,
    length_flatMap_blocks fun r hr => builtBlock_length s.params r.val n.toNat (hts r (rows_below hr)).2,
    List.length_take, List.length_cons, List.length_cons, List.length_cons, List.length_nil]
  omega

/-- The bytes of row block `r` in the packet: they begin at byte `2 + 42 r` (43 R132). -/
theorem settext_block_bytes (hidle : s.busy = false) (hready : RequestReady s n)
    (h : exec (.settext p n) s = .next t) {r : Fin 3} (hr : r.val < n.toNat) :
    ∃ text, rowText s r = .ok text ∧ text.length ≤ 35 ∧ ∀ m j, m = 2 + 42 * r.val + j → j < 42 →
      t.pkt[m]? = (rowBlockBytes (builtBlock s.params r.val n.toNat text))[j]? := by
  obtain ⟨ts, code, hts, -, hexec⟩ := exec_settext_ready hidle p hready
  cases hexec.symm.trans h
  refine ⟨ts r, (hts r hr).1, (hts r hr).2, fun m j hm hj => ?_⟩
  have hm2 : m = 42 * r.val + j + 1 + 1 := by omega
  rw [launch_pkt, hm2, List.getElem?_cons_succ, List.getElem?_cons_succ]
  exact getElem?_flatMap_blocks
    (fun q hq => builtBlock_length s.params q.val n.toNat (hts q (rows_below hq)).2) hj (requestRow_getElem? hr)

/-- Settles O9: each byte is one of the frame of the row's block. -/
theorem settextFramesEachRow : Obligations.SettextFramesEachRow := by
  intro p n s t hidle hready h i hi
  have ⟨⟨_, h3⟩, _⟩ := hready
  obtain ⟨r, rfl⟩ : ∃ r : Fin 3, r.val = i := ⟨⟨i, by omega⟩, rfl⟩
  obtain ⟨text, -, hlen, hbytes⟩ := settext_block_bytes hidle hready h hi
  obtain ⟨hp0, hp1, hcr, hvt1, hvt2, hlf1, hlf2⟩ := builtBlock_frame s.params r.val n.toNat hlen _ rfl
  rw [frameByte_lf] at hlf1 hlf2
  refine ⟨(hbytes _ 0 (by omega) (by omega)).trans hp0, (hbytes _ 1 (by omega) (by omega)).trans ?_,
    (hbytes _ 2 (by omega) (by omega)).trans hcr,
    (hbytes _ 3 (by omega) (by omega)).trans hvt1,
    (hbytes _ 4 (by omega) (by omega)).trans hvt2,
    (hbytes _ 40 (by omega) (by omega)).trans hlf1,
    (hbytes _ 41 (by omega) (by omega)).trans hlf2⟩
  rw [slotTable_getElem?_eq_slotOf h3]
  exact hp1

/-- Settles O10: the 35 text bytes of the row's block are the padded text, each byte encoded on its own. -/
theorem settextPlacesEachCharacter : Obligations.SettextPlacesEachCharacter := by
  intro p n s t hidle hready h i hi len hlen
  obtain ⟨text, htext, hfit, hbytes⟩ := settext_block_bytes hidle hready h hi
  obtain ⟨hlength, hcells⟩ := readCells_spec htext
  obtain rfl : len = text.length := hlen.trans hlength.symm
  have hbyte : ∀ j < 35, t.pkt[7 + 42 * i.val + j]? =
      (pad s.params text)[j]?.map fun c => par s.params.parityMode (remap s.params c) := fun j hj =>
    (hbytes _ (5 + j) (by omega) (by omega)).trans (builtBlock_text s.params i.val n.toNat hfit hj)
  refine ⟨fun k hk c hc => ?_, fun j hj hout => ?_⟩
  · have hcell : text[k] = c := by
      have hk' := hcells k hk
      rw [Nat.zero_add, hc] at hk'
      exact (Option.some.inj hk').symm
    rw [Nat.add_assoc, hbyte _ (by omega), ← hcell]
    exact congrArg (Option.map _) (pad_getElem?_text s.params hk)
  · rw [hbyte j hj]
    exact congrArg (Option.map _) (pad_getElem?_outside s.params hj hout)

end Sys2Proof.Proofs.SetTextBytes
end

section
/-! The code tables (40_codec_tables, 41 R95): `HAM` and `REMAP`. -/

namespace Sys2Proof.Proofs.CodeTables
open Sys2Proof.Machine Sys2Proof.Laws Sys2Proof.Proofs.TextEncoder

/-! ### `HAM` -/

/-- Settles O42: the gates are evaluated on each of the sixteen nibbles. -/
theorem hamGatesGiveTheTable : Obligations.HamGatesGiveTheTable := by
  unfold Obligations.HamGatesGiveTheTable
  decide

theorem ham_distance : ∀ m n : BitVec 4, m ≠ n → 4 ≤ popcount (ham m ^^^ ham n) := by decide

theorem ham_odd_not_literal : ∀ n : BitVec 4, popcount (ham n) % 2 = 1 ∧ ham n ∉ literalBytes := by decide

/-- Settles O43: the 256 pairs of codewords, and the sixteen codewords. -/
theorem hamCodeProperties : Obligations.HamCodeProperties := ⟨ham_distance, ham_odd_not_literal⟩

/-! ### `REMAP` -/

theorem remap_of_lookup {p : Params} {b c : Byte} (h : (remapTable p).lookup b = some c) : remap p b = c := by
  rw [remap, h, Option.getD_some]

/-- Outside the explicit domain `REMAP` is the identity (40 R74). -/
theorem remap_of_not_mem {p : Params} {b : Byte} (h : b ∉ (remapTable p).map Prod.fst) : remap p b = b := by
  have hnone : (remapTable p).lookup b = none := List.lookup_eq_none_iff.2 fun c hc =>
    bne_iff_ne.2 fun heq => h (heq ▸ List.mem_map_of_mem hc)
  rw [remap, hnone, Option.getD_none]

theorem lookup_of_mem_nodup {α β : Type} [BEq α] [LawfulBEq α] {l : List (α × β)} (hnodup : (l.map Prod.fst).Nodup)
    {c : α × β} (hc : c ∈ l) : l.lookup c.1 = some c.2 := by
  obtain ⟨l₁, l₂, rfl⟩ := List.append_of_mem hc
  refine List.lookup_eq_some_iff.2 ⟨l₁, l₂, rfl, fun d hd => bne_iff_ne.2 fun heq => ?_⟩
  rw [List.map_append, List.map_cons, List.nodup_append] at hnodup
  obtain ⟨-, -, hdisjoint⟩ := hnodup
  exact hdisjoint _ (List.mem_map_of_mem hd) _ List.mem_cons_self heq.symm

theorem remap_of_mem {p : Params} (hnodup : ((remapTable p).map Prod.fst).Nodup) {c : Byte × Byte}
    (hc : c ∈ remapTable p) : remap p c.1 = c.2 :=
  remap_of_lookup (lookup_of_mem_nodup hnodup hc)

/-- The 22 codes of the explicit domain with the default text code (40 R75 to R77). -/
theorem remapTable_codes_latin1 {p : Params} (hcode : p.textCode = latin1) :
    (remapTable p).map Prod.fst =
      [0x40, 0x60, 0x5B, 0x5C, 0x5D, 0x7B, 0x7C, 0x7D, 0x7E, 0xA7, 0xC4, 0xD6, 0xDC, 0xE4, 0xF6, 0xFC, 0xDF,
        0xB0, 0xC0, 0xC3, 0xC5, 0xC6] := by
  simp [remapTable, remapPunctuation, remapGerman, remapOpen, hcode, latin1]

/-- The same codes in rising order, as the identity's domain is written. -/
theorem latin1_codes_sorted : ∀ b ∈ [(0x40 : Byte), 0x60, 0x5B, 0x5C, 0x5D, 0x7B, 0x7C, 0x7D, 0x7E, 0xA7, 0xC4,
      0xD6, 0xDC, 0xE4, 0xF6, 0xFC, 0xDF, 0xB0, 0xC0, 0xC3, 0xC5, 0xC6],
    b ∈ [(0x40 : Byte), 0x5B, 0x5C, 0x5D, 0x60, 0x7B, 0x7C, 0x7D, 0x7E, 0xA7, 0xB0, 0xC0, 0xC3, 0xC4, 0xC5,
      0xC6, 0xD6, 0xDC, 0xDF, 0xE4, 0xF6, 0xFC] := by decide

/-- Settles O44: with 22 different codes the table's lookup finds each cell, and it finds nothing outside; the
default codes are 22 different ones. -/
theorem remapCellsAndIdentity : Obligations.RemapCellsAndIdentity := by
  intro p
  refine ⟨fun hcode => ?_, fun cells hcells => ?_⟩
  · have hcodes := remapTable_codes_latin1 hcode
    refine ⟨fun c hc => remap_of_mem (by rw [hcodes]; decide) ?_, fun b hb => remap_of_not_mem ?_⟩
    · simpa [remapTable, remapPunctuation, remapGerman, remapOpen, hcode, latin1] using hc
    · rw [hcodes]
      exact fun hmem => hb (latin1_codes_sorted b hmem)
  · have htable : cells = remapTable p := hcells
    subst htable
    exact ⟨fun hnodup c => remap_of_mem hnodup, fun b => remap_of_not_mem⟩

/-! ### The parity of a text byte -/

/-- `PAR` leaves an even popcount exactly where the byte's is even and bit 7 is set already (41 R92). -/
theorem popcount_par_setMsbIfEven_odd_iff (b : Byte) :
    popcount (par .setMsbIfEven b) % 2 = 1 ↔ ¬ (popcount b % 2 = 0 ∧ b.getLsbD 7 = true) := by
  have hpar := popcount_eq_low_add_top (par .setMsbIfEven b)
  have hb := popcount_eq_low_add_top b
  rw [par_and_low, getLsbD_seven_par_setMsbIfEven] at hpar
  cases htop : b.getLsbD 7 with
  | true =>
    simp only [htop, Bool.true_or, Bool.toNat_true] at hpar hb
    simp only [and_true]
    omega
  | false =>
    simp only [htop, Bool.false_or, Bool.toNat_false, Nat.add_zero] at hpar hb
    simp only [Bool.false_eq_true, and_false, not_false_eq_true, iff_true]
    by_cases heven : popcount b % 2 = 0
    · simp only [heven, beq_self_eq_true, Bool.toNat_true] at hpar
      omega
    · simp only [beq_eq_false_iff_ne.2 heven, Bool.toNat_false, Nat.add_zero] at hpar
      omega

set_option maxRecDepth 4000 in
/-- The raw bytes whose code has an even popcount and bit 7 set (41 R95). -/
theorem even_top_codes : ∀ c : Byte,
    (popcount (remap defaultParams c) % 2 = 0 ∧ (remap defaultParams c).getLsbD 7 = true) ↔
      c ∈ [(0x81 : Byte), 0x82, 0x84, 0x87, 0x88, 0x8B, 0x8D, 0x8E, 0x90, 0x93, 0x95, 0x96, 0x99, 0x9A,
        0x9C, 0x9F, 0xA0, 0xA3, 0xA5, 0xA6, 0xA9, 0xAA, 0xAC, 0xAF, 0xB1, 0xB2, 0xB4, 0xB7, 0xB8, 0xBB,
        0xBD, 0xBE, 0xC9, 0xCA, 0xCC, 0xCF, 0xD1, 0xD2, 0xD4, 0xD7, 0xD8, 0xDB, 0xDD, 0xDE, 0xE1, 0xE2,
        0xE7, 0xE8, 0xEB, 0xED, 0xEE, 0xF0, 0xF3, 0xF5, 0xF9, 0xFA, 0xFF] := by decide

/-- Settles O47: the 57 bytes are those whose code `PAR` cannot make odd. -/
theorem oddParityExceptFiftySeven : Obligations.OddParityExceptFiftySeven :=
  fun c => (popcount_par_setMsbIfEven_odd_iff _).trans (not_congr (even_top_codes c))

end Sys2Proof.Proofs.CodeTables
end

section
/-! `PAGESEL` under a page narrower than its port's field (00_scope R4, log 8). -/

namespace Sys2Proof.Proofs.PageWidth
open Sys2Proof.Machine Sys2Proof.Proofs.PacketBuilder Sys2Proof.Proofs.FixedPackets

/-- Settles O60: the page operand is the field's low bits, and its packet is built as for a full page. -/
theorem pageselTakesPageWidthBits : Obligations.PageselTakesPageWidthBits := by
  intro p q n s hidle _ hq
  have hoperand : pageOperand s.params p = q := by
    rw [pageOperand, ← hq, BitVec.ofNat_toNat, BitVec.setWidth_eq]
  rw [exec_pagesel_idle hidle, hoperand, pageSelPacket_eq]
  rfl

end Sys2Proof.Proofs.PageWidth
end

section
/-! Whole transfers of a host that is alone: the packet in flight leaves (43 R130, R131), a row is loaded (30 R62
(a)). -/

namespace Sys2Proof.Proofs.WholeTransfers
open Sys2Proof.Machine Sys2Proof.Laws Sys2Proof.Proofs.HostWrites Sys2Proof.Proofs.TxStep
  Sys2Proof.Proofs.HostRun Sys2Proof.Proofs.RowLoading

variable {s : State} {rest : List HostOp}

/-! ### The packet in flight -/

/-- In the history a byte that is not its packet's last stands before the rest of the packet, unmarked. -/
theorem marked_cons {bs : List Byte} (hne : bs ≠ []) (b : Byte) : marked (b :: bs) = ⟨b, false⟩ :: marked bs := by
  obtain ⟨c, cs, rfl⟩ := List.exists_cons_of_ne_nil hne
  rfl

/-- The bytes of the packet that have not left, one step for each; the last makes the block idle. -/
theorem run_takePacket (n : Nat) {s : State} (hleft : s.idx.toNat + (n + 1) = s.pkt.length)
    (hbusy : s.busy = true) (hlen : s.pkt.length ≤ 256) (htimer : s.session.timer = none) :
    ∃ t, Host.Core.run core (n + 1) (alone [.port .takePacket] s) = .next t ∧ t.busy = false ∧ t.idx = 0 ∧
      t.pkt = s.pkt ∧ t.txh = s.txh ++ marked (s.pkt.drop s.idx.toNat) := by
  have hin : s.idx.toNat < s.pkt.length := by omega
  have hstep := step_takePacket (rest := []) hbusy (List.getElem?_eq_getElem hin) htimer
  have hsend := sends_handOut s.pkt[s.idx.toNat] s
  have htxh := hsend.txh
  rw [List.drop_eq_getElem_cons hin]
  cases n with
  | zero =>
    have hlast : atLast s = true := by rw [atLast, beq_iff_eq]; omega
    obtain ⟨hidx, hidle⟩ := handOut_atLast ((hostTakes_atLast s).trans hlast) s.pkt[s.idx.toNat]
    rw [hlast] at htxh
    rw [List.drop_of_length_le (by omega)]
    exact ⟨_, run_of_step hstep, hidle, hidx, by simp [alone], htxh⟩
  | succ n =>
    have hlast : atLast s = false := by rw [atLast, beq_eq_false_iff_ne]; omega
    rw [hlast] at hstep htxh
    obtain ⟨hbusy', hpkt, hidx⟩ := handOut_hostTakes_goes_on (b := s.pkt[s.idx.toNat]) (by omega) hlen
    obtain ⟨t, hrun, hidle, hidx', hpkt', htxh'⟩ := run_takePacket n
      (s := handOut s.pkt[s.idx.toNat] (hostTakes s)) (by rw [hidx, hpkt]; omega) (hbusy'.trans hbusy)
      (hpkt ▸ hlen) (hsend.timer.trans htimer)
    refine ⟨t, (run_of_step hstep).trans hrun, hidle, hidx', hpkt'.trans hpkt, ?_⟩
    have hmore : s.pkt.drop (s.idx.toNat + 1) ≠ [] :=
      List.ne_nil_of_length_pos (by rw [List.length_drop]; omega)
    rw [htxh', htxh, hpkt, hidx, marked_cons hmore, List.append_assoc]
    rfl

/-- Settles O24: the one activity takes the packet from `IDX` on. -/
theorem packetLeavesWhole : Obligations.PacketLeavesWhole := by
  intro s hacts htimer hbusy hidx hlen
  obtain ⟨n, hn⟩ : ∃ n, s.pkt.length = s.idx.toNat + (n + 1) := Nat.exists_eq_add_of_lt hidx
  have hrun := run_takePacket n hn.symm hbusy (by omega) htimer
  have hsteps : s.pkt.length - s.idx.toNat = n + 1 := by omega
  rwa [alone_self hacts, ← hsteps] at hrun

/-! ### Loading a row -/

variable {r : Fin 3} {text : List Byte}

theorem step_wr {w : PortWord} {t : State} (hidle : s.busy = false) (htimer : timerDue s = false)
    (hexec : exec (decodeWr w) (alone rest s) = .next (alone rest t)) :
    step (alone (.port (.wr w) :: rest) s) = .next (alone rest t) :=
  (step_port (by simp [portReady, wrReady, hidle]) htimer).trans hexec

theorem step_charWord {k : Nat} (hk : k < 35) (hidle : s.busy = false) (htimer : timerDue s = false) (c : Byte) :
    step (alone (.port (.wr (wrWord 0 (BitVec.ofNat 2 r.val) (BitVec.ofNat 6 k) c)) :: rest) s) =
      .next (alone rest { s with rowbuf := memWrite s.rowbuf (cellAddr r.val k) c }) :=
  step_wr hidle htimer (by rw [decodeWr_wrchWord]; exact exec_wrch_alone hk hidle c)

theorem step_lengthWord (n : Nat) (hidle : s.busy = false) (htimer : timerDue s = false) :
    step (alone (.port (.wr (wrWord 1 (BitVec.ofNat 2 r.val) 0 (BitVec.ofNat 8 n))) :: rest) s) =
      .next (alone rest (writeLen (BitVec.ofNat 2 r.val) (BitVec.ofNat 6 n) s)) := by
  obtain ⟨x, hx⟩ := decodeWr_wrlenWord (BitVec.ofNat 2 r.val) 0 (BitVec.ofNat 8 n)
  rw [BitVec.setWidth_ofNat_of_le (by omega)] at hx
  exact step_wr hidle htimer (by rw [hx]; exact exec_wrlen_alone hidle _ x _)

/-- The words of a text, one step for each; what comes after them is then run. -/
theorem run_storeText {k : Nat} (hk : k + text.length ≤ 35) (hidle : s.busy = false) (htimer : timerDue s = false)
    (n : Nat) :
    Host.Core.run core (text.length + n) (alone (((text.zipIdx k).map fun ck =>
        .port (.wr (wrWord 0 (BitVec.ofNat 2 r.val) (BitVec.ofNat 6 ck.2) ck.1))) ++ rest) s) =
      Host.Core.run core n (alone rest { s with rowbuf := storeText r.val k text s.rowbuf }) := by
  induction text generalizing k s with
  | nil => rw [List.length_nil, Nat.zero_add]; rfl
  | cons c cs ih =>
    rw [List.length_cons] at hk
    rw [List.length_cons, Nat.add_right_comm]
    exact (run_of_step (step_charWord (by omega) hidle htimer c)).trans
      (ih (s := { s with rowbuf := memWrite s.rowbuf (cellAddr r.val k) c }) (by omega) hidle htimer)

/-- What `LOADROW r, text` comes to for a text of any length: the characters that fit and the capped length. -/
def rowLoadedCapped (r : Fin 3) (text : List Byte) (s : State) : State :=
  writeLen (BitVec.ofNat 2 r.val) (BitVec.ofNat 6 (min text.length 63))
    { s with rowbuf := storeText r.val 0 (text.take 35) s.rowbuf }

theorem run_loadRow (hidle : s.busy = false) (htimer : timerDue s = false) :
    Host.Core.run core (min text.length 35 + 1) (alone (loadRow (BitVec.ofNat 2 r.val) text) s) =
      .next (alone [] (rowLoadedCapped r text s)) := by
  have hchars : (text.take 35).length = min text.length 35 := by rw [List.length_take, Nat.min_comm]
  have hwords := run_storeText (r := r) (text := text.take 35) (k := 0)
    (rest := [.port (.wr (wrWord 1 (BitVec.ofNat 2 r.val) 0 (BitVec.ofNat 8 (min text.length 63))))])
    (by omega) hidle htimer 1
  rw [hchars] at hwords
  exact hwords.trans (run_of_step (step_lengthWord
    (s := { s with rowbuf := storeText r.val 0 (text.take 35) s.rowbuf }) (min text.length 63) hidle htimer))

theorem rowLen_rowLoadedCapped (r : Fin 3) (text : List Byte) (s : State) (q : Fin 3) :
    rowLen (rowLoadedCapped r text s) q = if q = r then BitVec.ofNat 6 (min text.length 63) else rowLen s q := by
  rw [rowLoadedCapped, rowLen_writeLen, toNat_row]
  simp only [Fin.val_inj]
  rfl

@[simp] theorem rowLoadedCapped_rowbuf (r : Fin 3) (text : List Byte) (s : State) :
    (rowLoadedCapped r text s).rowbuf = storeText r.val 0 (text.take 35) s.rowbuf := by
  simp [rowLoadedCapped]

/-- A text that fits is loaded whole. -/
theorem rowLoadedCapped_fits (hlen : text.length ≤ 35) : rowLoadedCapped r text s = rowLoaded r text s := by
  rw [rowLoadedCapped, rowLoaded, List.take_of_length_le hlen, Nat.min_eq_left (by omega)]

theorem rowText_rowLoadedCapped_other {q : Fin 3} (hq : q ≠ r) :
    rowText (rowLoadedCapped r text s) q = rowText s q := by
  refine SetTextReads.rowText_congr (by rw [rowLen_rowLoadedCapped, if_neg hq]) fun k hk => ?_
  have hk64 : k < 64 := hk.trans (rowLen s q).isLt
  rw [rowLoadedCapped_rowbuf]
  refine memRead_storeText_other fun i hi heq => hq (Fin.ext ?_)
  rw [List.length_take] at hi
  exact (cellAddr_inj hk64 (by omega) heq).1

/-- Settles O50: one step per character that fits and one for the length. -/
theorem loadRowLoadsItsRow : Obligations.LoadRowLoadsItsRow := by
  intro r text s hidle htimer hacts
  have hrun := run_loadRow (r := r) (text := text) hidle (timerDue_of_none htimer)
  rw [alone_self hacts] at hrun
  refine ⟨_, hrun, ?_, fun k hk c hc => ?_, fun a ha => ?_, fun hlen => ?_, fun q hq => ⟨?_, ?_⟩, ?_⟩
  · change (rowLen (rowLoadedCapped r text s) r).toNat = _
    rw [rowLen_rowLoadedCapped, if_pos rfl, BitVec.toNat_ofNat]
    omega
  · obtain ⟨hk', rfl⟩ := List.getElem?_eq_some_iff.1 hc
    have hstored := memRead_storeText (r := r.val) (k := 0) (text := text.take 35) (m := s.rowbuf) k
      (by rw [List.length_take]; omega)
    rw [Nat.zero_add, List.getElem_take] at hstored
    change memRead (rowLoadedCapped r text s).rowbuf _ = _
    rw [rowLoadedCapped_rowbuf, hstored]
  · change memRead (rowLoadedCapped r text s).rowbuf a = _
    rw [rowLoadedCapped_rowbuf]
    refine memRead_storeText_other fun i hi => ?_
    rw [Nat.zero_add]
    exact ha i (by rw [List.length_take] at hi; omega)
  · change rowText (rowLoadedCapped r text s) r = _
    rw [rowLoadedCapped_fits hlen]
    exact rowText_of_rowHolds (rowLoaded_holds hlen)
  · change rowLen (rowLoadedCapped r text s) q = _
    rw [rowLen_rowLoadedCapped, if_neg hq]
  · exact rowText_rowLoadedCapped_other hq
  · simp [alone, rowLoadedCapped, hidle]

end Sys2Proof.Proofs.WholeTransfers
end

section
/-! The host's calls that end early (44 R158, R161), its one timer (44 R156), and the end of a run (70 R200). -/

namespace Sys2Proof.Proofs.HostEnds
open Sys2Proof.Machine Sys2Proof.Laws Sys2Proof.Proofs.PacketBuilder Sys2Proof.Proofs.HostOps
  Sys2Proof.Proofs.SettleDelay Sys2Proof.Proofs.Steps

variable {s s' t : State} {i k : Nat} {rest : List HostOp}

/-! ### A request the host rejects -/

section
variable {rows : List (List Byte)} {e : CmdError}

/-- The three checks of 44 R161, in their order. -/
theorem requestError_some (hreject : (e = .tooManyRows ∧ 3 < rows.length) ∨
      (e = .invalidRowSelection ∧ rows.length = 0) ∨
      (e = .rowTooLong ∧ 1 ≤ rows.length ∧ rows.length ≤ 3 ∧ ∃ t ∈ rows, 35 < t.length)) :
    requestError rows = some e := by
  rcases hreject with ⟨rfl, hmany⟩ | ⟨rfl, hzero⟩ | ⟨rfl, h1, h3, t, ht, hlong⟩
  · exact if_pos hmany
  · simp [requestError, maxRows, hzero]
  · have hcount : ¬ maxRows < rows.length := Nat.not_lt.2 h3
    have hsome : ¬ rows.length = 0 := by omega
    have hany : rows.any (fun t => decide (rowWidth < t.length)) = true :=
      List.any_eq_true.2 ⟨t, ht, decide_eq_true hlong⟩
    rw [requestError, if_neg hcount, if_neg hsome, if_pos hany]

theorem validate_rejected (hchecks : s.params.hostChecksFirst = true) (herr : requestError rows = some e) :
    sessionOp (.validate rows) i rest s = endCall i (.rejected (errCode e)) (afterCall rest) s := by
  simp only [sessionOp, validateRequest, hchecks, herr]

/-- Settles O51: the check fails and ends the call, or finds no error and the call goes on. -/
theorem rejectedRequestSendsNothing : Obligations.RejectedRequestSendsNothing := by
  intro rows i rest s hchecks hi
  refine ⟨fun e hreject => ⟨_, rfl, ?_⟩, fun h1 h3 hrows => ApiSetText.validate_fits ⟨h1, h3, hrows⟩ i rest s⟩
  rw [validate_rejected hchecks (requestError_some hreject)]
  exact ⟨List.getElem?_set_self hi, rfl⟩

end

/-! ### A connection that fails -/

theorem awaitConnect_fails {ds : List Bool} (hdials : s.session.dials = false :: ds) :
    sessionOp .awaitConnect i rest s = endCall i .connectFailed (afterCall rest)
      { s with
        session.conn := if s.session.conn = .connected then .connected else .disconnected
        session.dials := ds } := by
  simp only [sessionOp, connectionEnds, hdials]

theorem handshakeDone_lost {handle : Nat} (hlost : handle ∈ s.session.lost) :
    sessionOp (.handshakeDone handle) i rest s = endCall i .connectFailed (afterCall rest) s :=
  if_pos hlost

/-- An error on a connection, by whether it is the session's, another open one, or none that is open. -/
theorem loseConnection_session (handle : Nat) (s : State) : (loseConnection handle s).session =
    if s.session.handle = some handle then
      if s.session.conn = .connected then
        { s.session with conn := .disconnected, lost := s.session.lost ++ [handle] }
      else s.session
    else if handle < s.session.opened ∧ handle ∉ s.session.lost then
      { s.session with lost := s.session.lost ++ [handle] }
    else s.session := by
  unfold loseConnection loseLink
  by_cases hown : s.session.handle = some handle
  · rw [if_pos hown, if_pos hown, hown]
    split <;> rfl
  · rw [if_neg hown, if_neg hown]
    simp only [Bool.and_eq_true, decide_eq_true_eq, Bool.not_eq_true', List.contains_eq_mem,
      decide_eq_false_iff_not]
    split <;> rfl

theorem transportError_session (handle i : Nat) (rest : List HostOp) (s : State) :
    (sessionOp (.transportError handle) i rest s).session = (loseConnection handle s).session := by
  rw [loseConnection_session]
  exact loseConnection_session handle (setAct i rest s)

/-- Settles O53: an attempt that fails, a handshake whose connection is lost, and an error of the transport. -/
theorem failedOpeningEndsTheCall : Obligations.FailedOpeningEndsTheCall := by
  intro i rest s hi
  refine ⟨fun ds hdials => ?_, fun handle => ⟨fun hlost => ?_, fun hopen => if_neg hopen⟩, fun handle => ?_⟩
  · rw [awaitConnect_fails hdials]
    exact ⟨List.getElem?_set_self hi, fun hconn => if_neg hconn, fun hconn => if_pos hconn, rfl⟩
  · rw [handshakeDone_lost hlost]
    exact ⟨List.getElem?_set_self hi, rfl⟩
  · rw [transportError_session, loseConnection_session]
    refine ⟨fun hown hconn => ?_, fun hother hopened hopen => ?_, ?_⟩
    · rw [if_pos hown, if_pos hconn]
    · rw [if_neg hother, if_pos ⟨hopened, hopen⟩]
    · rintro (⟨hown, hconn⟩ | ⟨hother, hclosed⟩)
      · rw [if_pos hown, if_neg hconn]
      · have hnone : ¬ (handle < s.session.opened ∧ handle ∉ s.session.lost) := fun ⟨hopened, hopen⟩ =>
          hclosed.elim (fun h => absurd hopened (Nat.not_lt.2 h)) hopen
        rw [if_neg hother, if_neg hnone]

/-! ### The timer -/

theorem fire_not_mem_enabledActs (acts : List (List HostOp)) : .fire ∉ enabledActs s k acts := by
  induction acts generalizing k with
  | nil => exact List.not_mem_nil
  | cons ops acts ih =>
    cases ops with
    | nil => exact ih
    | cons op ops =>
      rw [enabledActs]
      split
      · exact fun hmem => (List.mem_cons.1 hmem).elim Move.noConfusion ih
      · exact ih

/-- The timer fires only when it is due (44 R156). -/
theorem timerDue_of_fire (hmove : chooseMove s = some (.fire, s')) : timerDue s = true := by
  have hmem := chooseMove_mem hmove
  by_contra hdue
  rw [enabledMoves, if_neg hdue] at hmem
  exact fire_not_mem_enabledActs _ hmem

theorem txMove_timer (h : txMove s = .next t) : t.session.timer = s.session.timer := by
  rw [txMove_eq] at h
  rcases txTransfer_next h with ⟨-, rfl⟩ | ⟨-, b, -, rfl⟩
  · exact hostTakes_timer s
  · rw [handOut_session, hostTakes_timer]

/-- Nothing at a port concerns the timer. -/
theorem portOp_timer {op : PortOp} (h : portOp op i rest s = .next t) : t.session.timer = s.session.timer := by
  cases op with
  | rst => cases h; exact tearLink_timer _
  | wr w =>
    obtain ⟨-, hsession⟩ := exec_silent (encode_decodeWr_ne_tx w) h
    rw [hsession, setAct_session]
  | cmd w =>
    obtain ⟨-, hsession⟩ := exec_silent (encode_decodeCmd_ne_tx w) h
    rw [hsession, setAct_session]
  | tx => exact txMove_timer (s := setAct i rest s) h
  | takePacket =>
    simp only [portOp] at h
    split at h
    · have htimer := txMove_timer h
      split at htimer <;> exact htimer
    · cases h; rfl

/-- Of the session's operations one cancels the timer and one sets it. -/
theorem sessionOp_timer (op : SessionOp) (i : Nat) (rest : List HostOp) (s : State) :
    (sessionOp op i rest s).session.timer = s.session.timer ∨ (sessionOp op i rest s).session.timer = none ∨
      ∃ ms, op = .startTimer ms ∧ (sessionOp op i rest s).session.timer = some (s.session.now + ms) := by
  cases op with
  | ensureConnected host port => simp only [sessionOp, ensureConnected]; split <;> exact .inl rfl
  | awaitConnect => simp only [sessionOp, connectionEnds]; split <;> exact .inl rfl
  | handshakeDone handle => simp only [sessionOp, handshakeEnds]; split <;> exact .inl rfl
  | validate rows => simp only [sessionOp, validateRequest]; split <;> exact .inl rfl
  | cancelTimer => exact .inr (.inl rfl)
  | checkErr => simp only [sessionOp, checkErr]; split <;> exact .inl rfl
  | startTimer ms => exact .inr (.inr ⟨ms, rfl, rfl⟩)
  | settle | ret | elapse => exact .inl rfl
  | transportError handle => exact .inl (loseConnection_timer handle _)

/-- A step that changes the timer fires it, cancels it or starts a new one. -/
theorem step_timer (h : step s = .next t) (hchanged : t.session.timer ≠ s.session.timer) :
    t.session.timer = none ∨ ∃ k d s' after, chooseMove s = some (.act k, s') ∧
      s.acts[k]? = some (.own (.startTimer d) :: after) ∧ t.session.timer = some (s.session.now + d) := by
  rcases step_next h with rfl | ⟨m, s', hmove, hrun⟩
  · exact absurd rfl hchanged
  obtain ⟨-, -, -, -, hacts, hsession⟩ := chooseMove_block hmove
  rw [← hsession] at hchanged ⊢
  rw [← hacts]
  cases m with
  | fire => cases hrun; exact .inl rfl
  | act k =>
    simp only [runMove] at hrun
    split at hrun
    · exact absurd (portOp_timer hrun) hchanged
    · next op rest hact =>
      cases hrun
      rcases sessionOp_timer op k rest s' with hsame | hnone | ⟨ms, rfl, hset⟩
      · exact absurd hsame hchanged
      · exact .inl hnone
      · exact .inr ⟨k, ms, s', rest, hmove, hact, hset⟩
    · cases hrun; exact absurd rfl hchanged

/-- Settles O54: starting, cancelling and firing by what they do, the rest by the moves of a step. -/
theorem oneAutoClearPerTimer : Obligations.OneAutoClearPerTimer := by
  intro i ms rest s
  refine ⟨rfl, rfl, rfl, fun t h => ?_, fun s' => timerDue_of_fire, fun t => step_timer⟩
  cases h
  exact ⟨rfl, rfl⟩

/-! ### The end of a run -/

/-- What the host has to present (70 R200, log 35). -/
theorem presents_eq_false_iff {op : HostOp} : presents s op = false ↔
    (∀ w, op ≠ .port (.wr w)) ∧ (∀ w, op ≠ .port (.cmd w)) ∧ op ≠ .own .awaitConnect ∧
      (s.session.conn ≠ .connected → ∀ host port, op ≠ .own (.ensureConnected host port)) := by
  cases op with
  | port op => cases op <;> simp [presents]
  | own op => cases op <;> simp [presents]

theorem presents_congr {op : HostOp} (hconn : t.session.conn = s.session.conn) (h : presents s op = false) :
    presents t op = false := by
  rw [presents_eq_false_iff] at h ⊢
  rwa [hconn]

theorem runOver_iff : runOver s = true ↔
    s.busy = false ∧ ∀ ops ∈ s.acts, ∀ op ∈ ops, presents s op = false := by
  simp [runOver, List.all_eq_true, and_comm]

/-- What a step keeps when the run is over: the result, `BUSY = 0`, and that no operation is added. -/
structure Rests (s t : State) : Prop where
  result : runResult t = runResult s
  idle : t.busy = false
  acts : ∀ ops ∈ t.acts, ∃ ops' ∈ s.acts, ops ⊆ ops'

theorem acts_set_subset {op : HostOp} {ops : List HostOp} (hact : s.acts[k]? = some (op :: rest))
    (hops : ops ⊆ rest) : ∀ l ∈ s.acts.set k ops, ∃ l' ∈ s.acts, l ⊆ l' := by
  intro l hl
  rcases List.mem_or_eq_of_mem_set hl with hl | rfl
  · exact ⟨l, hl, List.Subset.refl l⟩
  · exact ⟨_, List.mem_of_getElem? hact, List.Subset.trans hops (List.subset_cons_self op rest)⟩

theorem rests_of_hostOnly {op : HostOp} {ops : List HostOp} (hact : s.acts[k]? = some (op :: rest))
    (hidle : s.busy = false) (h : HostOnly s t) (hacts : t.acts = s.acts.set k ops) (hops : ops ⊆ rest) :
    Rests s t := by
  obtain ⟨⟨-, -, -, -, -, -, -, hbusy, -⟩, htxh, herrs, -⟩ := h
  exact ⟨by rw [runResult, runResult, htxh, herrs], hbusy.trans hidle, hacts ▸ acts_set_subset hact hops⟩

theorem afterCall_subset (ops : List HostOp) : afterCall ops ⊆ ops := by
  induction ops with
  | nil => exact List.Subset.refl _
  | cons op ops ih =>
    rw [afterCall]
    split
    · exact List.subset_cons_self op ops
    · exact List.subset_cons_of_subset op ih

/-- An operation of the session that presents nothing leaves its activity with some of what follows. -/
theorem sessionOp_acts {op : SessionOp} (hquiet : presents s (.own op) = false) :
    ∃ ops, ops ⊆ rest ∧ (sessionOp op i rest s).acts = s.acts.set i ops := by
  have hgoes : ∃ ops, ops ⊆ rest ∧ (setAct i rest s).acts = s.acts.set i ops := ⟨rest, List.Subset.refl rest, rfl⟩
  have hends : ∀ r, ∃ ops, ops ⊆ rest ∧ (endCall i r (afterCall rest) s).acts = s.acts.set i ops :=
    fun r => ⟨afterCall rest, afterCall_subset rest, rfl⟩
  cases op with
  | ensureConnected host port =>
    have hconn : s.session.conn = .connected := by simpa [presents] using hquiet
    rwa [ensureConnected_connected hconn]
  | awaitConnect => simp [presents] at hquiet
  | handshakeDone handle =>
    simp only [sessionOp, handshakeEnds]
    split
    · exact hends _
    · exact hgoes
  | validate rows =>
    simp only [sessionOp, validateRequest]
    split
    · exact hends _
    · exact hgoes
  | checkErr =>
    simp only [sessionOp, checkErr]
    split
    · exact hgoes
    · exact hends _
  | transportError handle => exact ⟨rest, List.Subset.refl rest, loseConnection_acts handle _⟩
  | cancelTimer | settle | startTimer | ret | elapse => exact hgoes

theorem txMove_idle (hidle : s.busy = false) : txMove s = .next s := by
  rw [txMove_eq, hostTakes_idle hidle, txTransfer, hidle]
  rfl

/-- A port operation that presents nothing, on an idle block: a reset, or a take from an idle `TX`. -/
theorem portOp_rests {op : PortOp} (hact : s.acts[k]? = some (.port op :: rest)) (hidle : s.busy = false)
    (hquiet : presents s (.port op) = false) : ∃ t, portOp op k rest s = .next t ∧ Rests s t := by
  have hgoes : Rests s (setAct k rest s) :=
    rests_of_hostOnly hact hidle (setAct_hostOnly k rest s) rfl (List.Subset.refl rest)
  cases op with
  | rst =>
    have htear : Rests s (tearLink (setAct k rest s)) := rests_of_hostOnly hact hidle
      ((setAct_hostOnly k rest s).trans (tearLink_hostOnly _)) (tearLink_acts _) (List.Subset.refl rest)
    exact ⟨_, rfl, htear.result, rfl, htear.acts⟩
  | wr w => simp [presents] at hquiet
  | cmd w => simp [presents] at hquiet
  | tx => exact ⟨_, txMove_idle (s := setAct k rest s) hidle, hgoes⟩
  | takePacket => exact ⟨_, if_neg (Bool.eq_false_iff.1 hidle), hgoes⟩

theorem runMove_rests (hover : runOver s = true) (k : Nat) : ∃ t, runMove (.act k) s = .next t ∧ Rests s t := by
  obtain ⟨hidle, hquiet⟩ := runOver_iff.1 hover
  have hhead : ∀ {op ops}, s.acts[k]? = some (op :: ops) → presents s op = false := fun hact =>
    hquiet _ (List.mem_of_getElem? hact) _ List.mem_cons_self
  simp only [runMove]
  split
  · next op rest hact => exact portOp_rests hact hidle (hhead hact)
  · next op rest hact =>
    obtain ⟨ops, hops, hacts⟩ := sessionOp_acts (i := k) (rest := rest) (hhead hact)
    exact ⟨_, rfl, rests_of_hostOnly hact hidle (sessionOp_hostOnly op k rest s) hacts hops⟩
  · exact ⟨s, rfl, rfl, hidle, fun ops hops => ⟨ops, hops, List.Subset.refl ops⟩⟩

/-- A step of a run that is over and has no timer due. -/
theorem step_rests (hover : runOver s = true) (htimer : timerDue s = false) :
    ∃ t, step s = .next t ∧ Rests s t := by
  cases hmove : chooseMove s with
  | none =>
    exact ⟨s, by simp only [step, hmove], rfl, (runOver_iff.1 hover).1,
      fun ops hops => ⟨ops, hops, List.Subset.refl ops⟩⟩
  | some ms =>
    obtain ⟨m, s'⟩ := ms
    cases m with
    | fire => simp [timerDue_of_fire hmove] at htimer
    | act k =>
      rw [step_eq_runMove hmove, (chooseMove_some hmove).1]
      obtain ⟨t, hrun, hresult, hidle, hacts⟩ := runMove_rests (s := { s with sched := s'.sched }) hover k
      exact ⟨t, hrun, hresult, hidle, hacts⟩

theorem runOver_of_rests (hover : runOver s = true) (h : Rests s t) (hconn : t.session.conn = s.session.conn) :
    runOver t = true := by
  obtain ⟨-, hquiet⟩ := runOver_iff.1 hover
  refine runOver_iff.2 ⟨h.idle, fun ops hops op hop => ?_⟩
  obtain ⟨ops', hops', hsub⟩ := h.acts ops hops
  exact presents_congr hconn (hquiet ops' hops' op (hsub hop))

theorem hostDone_iff : hostDone s = true ↔
    (∀ ops ∈ s.acts, ops = []) ∧ s.busy = false ∧ s.session.timer = none := by
  simp [hostDone, and_assoc]

theorem run_of_idle_step (hstep : step s = .next s) (k : Nat) : Host.Core.run core k s = .next s := by
  induction k with
  | zero => rfl
  | succ k ih => exact (run_of_step hstep).trans ih

/-- Settles O59: over by what is left to present; a step then adds nothing; and with nothing left nothing can
happen. -/
theorem runOverRests : Obligations.RunOverRests := by
  intro s
  refine ⟨?_, fun hbusy => by simp [runOver, hbusy], fun hover htimer => ?_, fun hdone => ?_⟩
  · simp only [runOver_iff, presents_eq_false_iff]
  · obtain ⟨t, hstep, hrests⟩ := step_rests hover htimer
    exact ⟨t, hstep, hrests.result, hrests.idle, runOver_of_rests hover hrests⟩
  · obtain ⟨hacts, hidle, htimer⟩ := hostDone_iff.1 hdone
    refine ⟨runOver_iff.2 ⟨hidle, fun ops hops op hop => ?_⟩, run_of_idle_step ?_⟩
    · rw [hacts ops hops] at hop
      exact absurd hop List.not_mem_nil
    · exact step_of_nothing_enabled (HostRun.timerDue_of_none htimer) fun op rest hmem =>
        absurd (hacts _ hmem) (List.cons_ne_nil op rest)

end Sys2Proof.Proofs.HostEnds
end
